-- ==== Sys2Proof/Word.lean ====
section
/-! DEFINITION. The word types of the block (00_scope.md R4, R5, R8) and the two fields of its command word
(30_encoding.md R70). -/

namespace Sys2Proof

/-- A byte, `b[7:0]` (R8). -/
abbrev Byte := BitVec 8

/-- A value operand or result, exactly 64 bits (R4). -/
abbrev Value := BitVec 64

/-- The 7 payload bits of one group (R5). -/
abbrev Group := BitVec 7

/-- The fields of a command word (R70): `rsv` is bits 7:2, `op` is bits 1:0. -/
structure CmdWord where
  rsv : BitVec 6
  op  : BitVec 2
  deriving DecidableEq, Repr

end Sys2Proof
end

