-- ==== Sys2Proof/Syntax.lean ====
section
/-! DEFINITION. The operations of the block: one constructor per row of spec/opcode_table.json. -/

namespace Sys2Proof

/-- The four operations (30_encoding.md R71). The command word holds no operand field (R70, R72): every operand
travels in the input record of 10_state.md R25. -/
inductive Instr where
  /-- `encode_unsigned_append`, 40_encode.md R81. -/
  | encu
  /-- `encode_signed_append`, 40_encode.md R86. -/
  | encs
  /-- `decode_unsigned`, 41_decode.md R106. -/
  | decu
  /-- `decode_signed`, 41_decode.md R111. -/
  | decs
  deriving DecidableEq, Repr

end Sys2Proof
end

