-- ==== Sys2Proof/WellFormed.lean ====
section
/-! DEFINITION. Which command words and instructions are well formed. -/

namespace Sys2Proof

/-- A command word is legal when its reserved field is 0 (30_encoding.md R70, R73, R74). -/
def CmdWord.wellFormed (w : CmdWord) : Bool := w.rsv == 0#6

/-- No operation has an operand field to check (R70, R72): all four are well formed. -/
def Instr.wellFormed : Instr → Bool
  | .encu => true
  | .encs => true
  | .decu => true
  | .decs => true

end Sys2Proof
end

