-- ==== Sys2Proof/Decode.lean ====
section
/-! DEFINITION. The command word's decoder and, after it, its encoder (30_encoding.md R70 to R74). -/

namespace Sys2Proof

/-- Why a command word names no operation. -/
inductive DecodeError where
  /-- Bits 7:2 are not 0 (R73); the field is recorded. -/
  | reservedBitsSet (rsv : BitVec 6)
  deriving DecidableEq, Repr

/-- The fields of a command word (R70). -/
def CmdWord.ofByte (b : Byte) : CmdWord := { rsv := b.extractLsb' 2 6, op := b.extractLsb' 0 2 }

/-- The command word with these fields (R70). -/
def CmdWord.toByte (w : CmdWord) : Byte := w.rsv ++ w.op

/-- The operation a select field names (R71). All four values name one (R74). -/
def opInstr (op : BitVec 2) : Instr :=
  match op with
  | 0b00#2 => .encu
  | 0b01#2 => .encs
  | 0b10#2 => .decu
  | 0b11#2 => .decs

/-- The operation a command word selects, or the reason it is illegal (R71, R73). -/
def decode (cmd : Byte) : Except DecodeError Instr :=
  let w := CmdWord.ofByte cmd
  if w.wellFormed then .ok (opInstr w.op) else .error (.reservedBitsSet w.rsv)

/-- Decoding from a sequence of bytes: a command word is one byte long (R70, R75), and the rest is handed back. -/
def decodeBytes : List Byte → Option (Except DecodeError Instr × List Byte)
  | [] => none
  | b :: rest => some (decode b, rest)

/-- The select field of an operation (R71). -/
def Instr.op : Instr → BitVec 2
  | .encu => 0b00#2
  | .encs => 0b01#2
  | .decu => 0b10#2
  | .decs => 0b11#2

/-- The fields of an operation's command word. -/
def Instr.cmdWord (i : Instr) : CmdWord := { rsv := 0#6, op := i.op }

/-- The command word of an operation. -/
def encode (i : Instr) : Byte := i.cmdWord.toByte

/-- The bytes of an instruction whose bits are `w`, in the table's numbering: the first byte is bits 7:0. -/
def tableBytes (nbits w : Nat) : List Byte :=
  (List.range (max 1 ((nbits + 7) / 8))).map fun j => BitVec.ofNat 8 (w % 2 ^ nbits / 2 ^ (8 * j))

/-- The instruction the decoder reads from a table word, if it is exactly one command word long. -/
def decodeTableWord (nbits w : Nat) : Option Instr :=
  match decodeBytes (tableBytes nbits w) with
  | some (.ok i, []) => some i
  | _ => none

end Sys2Proof
end

