-- ==== Sys2Proof/Config.lean ====
section
/-! DEFINITION. The implementation parameters of 00_scope.md section 4 and the block's one free value. -/

namespace Sys2Proof

/-- `G`, the payload bits of a group (R5). -/
def Config.groupBits : Nat := 7

/-- `W`, the width of a value (R4). -/
def Config.valueBits : Nat := 64

/-- `MAXG`, the most groups an encoding has (R6). -/
def Config.maxGroups : Nat := 10

/-- What is fixed when the block is built and no operation can read or write (10_state.md R24). -/
structure Build where
  /-- `RICH_ERRORS` (60_exceptions.md R134): whether the `fail_cause` output exists. -/
  richErrors : Bool
  deriving DecidableEq, Repr

/-- The default build: the sentinel mode (R134). -/
def Build.default : Build := { richErrors := false }

/-- `FAIL_VALUE` (41_decode.md R103, 93_implementation_defined.md U1): the 64-bit value a failing decode returns.
A free value: no body, so nothing can be proved of it. `draw` numbers the draws, so each failing decode draws
afresh; it may also depend on the operation and its input. Log entry 3. -/
opaque Config.failValue (draw : Nat) (op : Instr) (bytesIn : List Byte) : Value

end Sys2Proof
end

