-- ==== Sys2Proof/Machine/State.lean ====
section
/-! DEFINITION. The state of the machine: the interface records of 10_state.md R25 and R26, the working state of
R28 and R29, the build, and the model's own list of presented host events and draw counter. -/

namespace Sys2Proof.Machine

/-- The input record of one operation (R25). -/
structure InputRecord where
  /-- `cmd`. -/
  cmd      : Byte
  /-- `value_in`. -/
  valueIn  : Value
  /-- `Prefix`. -/
  prefixIn : List Byte
  /-- `In`. -/
  bytesIn  : List Byte
  deriving DecidableEq, Repr

/-- The result record of the last operation (R26). A field the operation does not produce carries no meaning and is
given no value (R26), so each case holds only its own fields. -/
inductive ResultRecord where
  /-- ENCU, ENCS: `Enc` and `Out`. -/
  | encoded (enc out : List Byte)
  /-- DECU, DECS: `value_out`, `count` and, only when `RICH_ERRORS` is true, `fail_cause`. -/
  | decoded (valueOut : Value) (count : Byte) (failCause : Option (BitVec 2))
  deriving DecidableEq, Repr

/-- The outcomes of a decode (60_exceptions.md R133). -/
inductive Cause where
  | none
  | truncated
  | overlong
  deriving DecidableEq, Repr

/-- `phase` of an encoder (R28). -/
inductive EncPhase where
  | emitting
  | done
  deriving DecidableEq, Repr

/-- Encoder working state (R28). -/
structure EncWork where
  rem   : Value
  k     : Nat
  enc   : List Byte
  phase : EncPhase
  deriving DecidableEq, Repr

/-- `phase` of a decoder (R29). -/
inductive DecPhase where
  | readingGroup
  | done
  | failed
  deriving DecidableEq, Repr

/-- Decoder working state (R29). -/
structure DecWork where
  acc   : Value
  i     : Nat
  phase : DecPhase
  deriving DecidableEq, Repr

/-- What the host can do to the block (10_state.md R27, 60_exceptions.md R138). -/
inductive HostEvent where
  /-- Presents one operation (R22). -/
  | operation (r : InputRecord)
  /-- Presents one operation and resets the block while it is in progress (70_reset_and_hazards.md R152). -/
  | interrupted (r : InputRecord)
  /-- Presents two operations at the same time (20_memory.md R48, 60_exceptions.md R140); `a` is the one whose result
  is delivered first. `shared` says that both name one host buffer as the buffer to append to, without the host
  ordering them (20_memory.md R49). -/
  | concurrent (a b : InputRecord) (shared : Bool)
  /-- Resets the block between operations (R150). -/
  | reset
  deriving DecidableEq, Repr

/-- The state of the machine. -/
structure State where
  /-- The build-time parameters (R24). No step changes them. -/
  build   : Build
  /-- The input record the host drives for the operation being performed (R25). -/
  port    : InputRecord
  /-- What the host has presented and the block has not yet taken, first to come first. The model's own field. -/
  pending : List HostEvent
  /-- The encoders' working state (R28): set at the start of each operation (70_reset_and_hazards.md R151). -/
  encWork : EncWork
  /-- The decoders' working state (R29): set at the start of each operation (R151). -/
  decWork : DecWork
  /-- The result record delivered last; none after reset until an operation completes (R150). -/
  result  : Option ResultRecord
  /-- How many `FAIL_VALUE` draws have been taken. The model's own field. -/
  draws   : Nat
  deriving DecidableEq, Repr

/-- The block has no trap, and the spec leaves no behaviour to a fault or a stuck state (60_exceptions.md R132,
93_implementation_defined.md section 1): there is no fault to raise. -/
inductive Fault where
  deriving DecidableEq, Repr

/-- Why the block gives no result. -/
inductive Refusal where
  /-- An instruction without a meaning. No arm of `exec` raises it: every operation has its meaning. Safe. -/
  | notModelled (mnemonic : String)
  /-- Raised by the step on a command word whose bits 7:2 are not 0 (30_encoding.md R73): no operation, no result.
  Safe: the spec gives the refusal. -/
  | illegalCommand (cmd : Byte)
  /-- Raised by the step on two appends to one buffer that the host does not serialise (20_memory.md R49): the spec
  gives the pair no outcome. Safe. -/
  | unserialisedAppends
  deriving DecidableEq, Repr

/-- The host drives nothing: a record of zeros (DESIGN CHOICE, log entry 1). -/
def InputRecord.idle : InputRecord := { cmd := 0#8, valueIn := 0#64, prefixIn := [], bytesIn := [] }

/-- An encoder's working state at reset: unspecified (R153), here that of the start of an operation on 0
(DESIGN CHOICE, log entry 1). -/
def EncWork.reset : EncWork := { rem := 0#64, k := 0, enc := [], phase := .emitting }

/-- A decoder's working state at reset: unspecified (R153), here that of the start of an operation
(DESIGN CHOICE, log entry 1). -/
def DecWork.reset : DecWork := { acc := 0#64, i := 0, phase := .readingGroup }

/-- The machine right after reset (70_reset_and_hazards.md R150, R153): the default build, ready, no result record,
nothing presented. -/
def State.reset : State :=
  { build := Build.default, port := InputRecord.idle, pending := [], encWork := EncWork.reset,
    decWork := DecWork.reset, result := none, draws := 0 }

end Sys2Proof.Machine
end

