-- ==== Sys2Proof/Machine/Flags.lean ====
section
/-! DEFINITION. The flag bits of a group byte and the codes of a decode's outcome. The block has no status flags
(10_state.md R23): the continuation flag is a data bit. -/

namespace Sys2Proof.Machine

/-- `C`, the continuation flag: bit 7 (30_encoding.md R60). -/
def contFlag (b : Byte) : Bool := b.getLsbD 7

/-- The sign bit of a group: bit 6 of its byte (R60). -/
def signBit (b : Byte) : Bool := b.getLsbD 6

/-- The 2-bit code of an outcome (60_exceptions.md R133). Code 3 is never produced. -/
def Cause.code : Cause → BitVec 2
  | .none => 0#2
  | .truncated => 1#2
  | .overlong => 2#2

/-- The cause of a decode that failed on an input of `len` bytes (60_exceptions.md R131, R135). -/
def failCauseOf (len : Nat) : Cause := if min len Config.maxGroups = Config.maxGroups then .overlong else .truncated

/-- The optional `fail_cause` output (60_exceptions.md R134). -/
def causeOutput (build : Build) (c : Cause) : Option (BitVec 2) := if build.richErrors then some c.code else none

end Sys2Proof.Machine
end

