-- ==== Sys2Proof/Machine/Operands.lean ====
section
/-! DEFINITION. The operands of the operations: the two readings of a value, the fields of a group byte, the byte
sequences and their port forms, and the host's statements of 30_encoding.md R76. -/

namespace Sys2Proof.Machine

/-- `as_u64` (00_scope.md R9). -/
def asU64 (v : Value) : Nat := v.toNat

/-- `as_s64` (R9). -/
def asS64 (v : Value) : Int := (v.toNat : Int) - 2 ^ 64 * (v.getLsbD 63).toNat

/-- `b[6:0]`, the payload of a group byte (30_encoding.md R60). -/
def payload (b : Byte) : Group := b.extractLsb' 0 7

/-- `rem[6:0]`, the low 7 bits of a value (40_encode.md R81). -/
def lowGroup (v : Value) : Group := v.extractLsb' 0 7

/-- A group byte (R60): payload `g`, continuation flag as given. -/
def groupByte (more : Bool) (g : Group) : Byte := if more then 0x80#8 ||| g.setWidth 8 else g.setWidth 8

/-- `zext_64(b[6:0]) << (7*j)` at width 64 (41_decode.md R105): payload bits at or above bit 64 are lost. -/
def groupTerm (j : Nat) (b : Byte) : Value := (payload b).setWidth 64 <<< (Config.groupBits * j)

/-- `~0 << n` at width 64: bits 63 to `n` set (41_decode.md R111). -/
def onesFrom (n : Nat) : Value := (~~~ 0#64) <<< n

/-- `MemRead(i, 1)`: `In[i]`, and nothing at or beyond `len(In)` (00_scope.md R12, 20_memory.md R44). -/
def memRead (bytesIn : List Byte) (i : Nat) : Option Byte := bytesIn[i]?

/-- The window: the only bytes a decoder examines (41_decode.md R101). -/
def window (bytesIn : List Byte) : List Byte := bytesIn.take Config.maxGroups

/-- Bytes packed with byte `j` at bits `8j+7:8j` (10_state.md R25, R26). -/
def packBytes (bs : List Byte) : BitVec 80 := bs.foldr (fun b acc => (acc <<< 8) ||| b.setWidth 80) 0#80

/-- The first `n` bytes of an 80-bit port. -/
def unpackBytes (bits : BitVec 80) (n : Nat) : List Byte := (List.range n).map fun j => bits.extractLsb' (8 * j) 8

/-- Up to 10 bytes on an 80-bit port; `fill` stands on the bits above them, which carry no meaning (R26, log entry 9). -/
def portBits (fill : BitVec 80) (bs : List Byte) : BitVec 80 := packBytes bs ||| (fill <<< (8 * bs.length))

/-- `In` as a hardware port gives it (R25). -/
structure InPort where
  inWin : BitVec 80
  inLen : BitVec 4
  deriving DecidableEq, Repr

/-- The port form of `In`: its window and the window's length (R25). -/
def InPort.ofBytes (fill : BitVec 80) (bytesIn : List Byte) : InPort :=
  { inWin := portBits fill (window bytesIn), inLen := BitVec.ofNat 4 (min bytesIn.length Config.maxGroups) }

/-- The byte sequence a decoder sees through the port (R25). -/
def InPort.bytes (p : InPort) : List Byte := unpackBytes p.inWin p.inLen.toNat

/-- `Enc` as a hardware port gives it (R26). -/
structure EncPort where
  encBytes : BitVec 80
  encLen   : BitVec 4
  deriving DecidableEq, Repr

/-- The port form of `Enc` (R26). -/
def EncPort.ofBytes (fill : BitVec 80) (enc : List Byte) : EncPort :=
  { encBytes := portBits fill enc, encLen := BitVec.ofNat 4 enc.length }

/-- The encoding a host reads from the port (R26). -/
def EncPort.bytes (p : EncPort) : List Byte := unpackBytes p.encBytes p.encLen.toNat

/-- A host's statement (30_encoding.md R76). Buffers and variables are the host's: a statement names its buffer by
the bytes in it. -/
inductive Asm where
  /-- `ENCU <buf>, <value>`. -/
  | encu (buf : List Byte) (value : Value)
  /-- `ENCS <buf>, <value>`. -/
  | encs (buf : List Byte) (value : Value)
  /-- `DECU <v>, <n>, <buf>[<c>]`. -/
  | decu (buf : List Byte) (c : Nat)
  /-- `DECS <v>, <n>, <buf>[<c>]`. -/
  | decs (buf : List Byte) (c : Nat)
  deriving DecidableEq, Repr

/-- `<c>` is an index from 0 to `len(<buf>)` (R76). -/
def Asm.wellFormed : Asm → Bool
  | .encu _ _ => true
  | .encs _ _ => true
  | .decu buf c => c ≤ buf.length
  | .decs buf c => c ≤ buf.length

/-- The input record a statement sends: the buffer as `Prefix`, or its suffix from `<c>` as `In` (R76). A field the
operation does not read has no effect (10_state.md R25) and is left idle. -/
def Asm.record : Asm → InputRecord
  | .encu buf value => { InputRecord.idle with cmd := encode .encu, valueIn := value, prefixIn := buf }
  | .encs buf value => { InputRecord.idle with cmd := encode .encs, valueIn := value, prefixIn := buf }
  | .decu buf c => { InputRecord.idle with cmd := encode .decu, bytesIn := buf.drop c }
  | .decs buf c => { InputRecord.idle with cmd := encode .decs, bytesIn := buf.drop c }

end Sys2Proof.Machine
end

