-- ==== Sys2Proof/Machine/Ops.lean ====
section
/-! DEFINITION. The named operations on the state: writing its fields, starting, running and ending an operation,
a decoder's failure, reset, and taking the next host event.

The spec has no exception entry and no return from one (60_exceptions.md R132, R137). What it has instead is the
failing decode, an ordinary completed operation: `failDecode`, shared by both decoders. -/

namespace Sys2Proof.Machine

/-- The host drives the record `r`. -/
def State.setPort (s : State) (r : InputRecord) : State := { s with port := r }

/-- The host events still to come. -/
def State.setPending (s : State) (p : List HostEvent) : State := { s with pending := p }

/-- Writes the encoders' working state. -/
def State.setEncWork (s : State) (w : EncWork) : State := { s with encWork := w }

/-- Writes the decoders' working state. -/
def State.setDecWork (s : State) (w : DecWork) : State := { s with decWork := w }

/-- Delivers a result record, or withdraws it. -/
def State.setResult (s : State) (r : Option ResultRecord) : State := { s with result := r }

/-- Counts one `FAIL_VALUE` draw. -/
def State.nextDraw (s : State) : State := { s with draws := s.draws + 1 }

/-- The working state an encode starts from (70_reset_and_hazards.md R151). -/
def EncWork.start (v : Value) : EncWork := { rem := v, k := 0, enc := [], phase := .emitting }

/-- The working state a decode starts from (R151). -/
def DecWork.start : DecWork := { acc := 0#64, i := 0, phase := .readingGroup }

/-- The end of one encoder iteration: `Emit(b)` and `k = k + 1`, with the shifted value and the phase
(40_encode.md R81, R86). -/
def emit (w : EncWork) (rem : Value) (b : Byte) (phase : EncPhase) : EncWork :=
  { rem := rem, k := w.k + 1, enc := w.enc ++ [b], phase := phase }

/-- Runs an encoder's iteration while the phase is EMITTING, at most `fuel` times. DONE is terminal (R28). -/
def encRun (iter : EncWork → EncWork) : Nat → EncWork → EncWork
  | 0, w => w
  | fuel + 1, w =>
    match w.phase with
    | .done => w
    | .emitting => encRun iter fuel (iter w)

/-- An encode operation from its start to its result (40_encode.md R80): 10 iterations are enough (R82, R87). -/
def encodeOp (iter : EncWork → EncWork) (s : State) : State :=
  let w := encRun iter Config.maxGroups (EncWork.start s.port.valueIn)
  (s.setEncWork w).setResult (some (.encoded w.enc (s.port.prefixIn ++ w.enc)))

/-- One step of the decoder machine (41_decode.md R100). `extend n b acc` is what the operation does to the
accumulator on the terminator byte `b`, the `n`-th byte. -/
def decStep (extend : Nat → Byte → Value → Value) (bytesIn : List Byte) (w : DecWork) : DecWork :=
  match memRead bytesIn w.i with
  | none => { w with phase := .failed }
  | some b =>
    let acc := w.acc ||| groupTerm w.i b
    let i := w.i + 1
    if contFlag b = false then { acc := extend i b acc, i := i, phase := .done }
    else if i = Config.maxGroups then { acc := acc, i := i, phase := .failed }
    else { acc := acc, i := i, phase := .readingGroup }

/-- Runs the decoder machine while the phase is READING_GROUP, at most `fuel` steps. DONE and FAILED are terminal
(R100). -/
def decRun (extend : Nat → Byte → Value → Value) (bytesIn : List Byte) : Nat → DecWork → DecWork
  | 0, w => w
  | fuel + 1, w =>
    match w.phase with
    | .done => w
    | .failed => w
    | .readingGroup => decRun extend bytesIn fuel (decStep extend bytesIn w)

/-- Success (41_decode.md R102). -/
def succeedDecode (value : Value) (n : Nat) (s : State) : State :=
  s.setResult (some (.decoded value (BitVec.ofNat 8 n) (causeOutput s.build .none)))

/-- Failure (41_decode.md R103): `count` is 0, `value_out` a fresh draw of the free value `FAIL_VALUE`. Nothing is
saved and control goes nowhere (60_exceptions.md R132). -/
def failDecode (op : Instr) (s : State) : State :=
  (s.setResult (some (.decoded (Config.failValue s.draws op s.port.bytesIn) 0#8
    (causeOutput s.build (failCauseOf s.port.bytesIn.length))))).nextDraw

/-- A decode operation from its start to its result: 11 steps are enough (R100). -/
def decodeOp (op : Instr) (extend : Nat → Byte → Value → Value) (s : State) : State :=
  let w := decRun extend s.port.bytesIn (Config.maxGroups + 1) DecWork.start
  match w.phase with
  | .done => succeedDecode w.acc w.i (s.setDecWork w)
  | .failed => failDecode op (s.setDecWork w)
  | .readingGroup => failDecode op (s.setDecWork w)

/-- Reset of the block (70_reset_and_hazards.md R150, R152, R153): no result record, working state as at reset. The
build does not change (R153), and the host's side is the host's. -/
def resetBlock (s : State) : State := ((s.setEncWork EncWork.reset).setDecWork DecWork.reset).setResult none

/-- Whether a command word selects an append (ENCU, ENCS). -/
def appends (cmd : Byte) : Bool :=
  match decode cmd with
  | .ok .encu => true
  | .ok .encs => true
  | .ok .decu => false
  | .ok .decs => false
  | .error _ => false

/-- What the next host event makes the block do. -/
inductive Fetch where
  /-- The host presents nothing: the block waits. -/
  | idle
  /-- The block performs `i` on the record now at the port. -/
  | run (i : Instr) (s : State)
  /-- The event is over, with no result. -/
  | over (s : State)
  /-- The block refuses. -/
  | refuse (r : Refusal)

/-- The block takes one operation's record: the command word selects the operation (30_encoding.md R70), and an
illegal one is refused before any other field is read (R73). -/
def fetchRecord (r : InputRecord) (s : State) : Fetch :=
  match decode r.cmd with
  | .ok i => .run i (s.setPort r)
  | .error _ => .refuse (.illegalCommand r.cmd)

/-- The block abandons one operation's record: it was in progress when reset arrived (70_reset_and_hazards.md R152).
An illegal command ends at once and is never in progress (R160). -/
def abandonRecord (r : InputRecord) (s : State) : Fetch :=
  match decode r.cmd with
  | .ok _ => .over (resetBlock (s.setPort r))
  | .error _ => .refuse (.illegalCommand r.cmd)

/-- The block takes the next host event. Two operations presented together are taken one after the other, which
gives each the result it would have alone (20_memory.md R48), unless both append to one buffer (R49). -/
def fetch (s : State) : Fetch :=
  match s.pending with
  | [] => .idle
  | .operation r :: rest => fetchRecord r (s.setPending rest)
  | .interrupted r :: rest => abandonRecord r (s.setPending rest)
  | .concurrent a b shared :: rest =>
    if shared && appends a.cmd && appends b.cmd then .refuse .unserialisedAppends
    else fetchRecord a (s.setPending (.operation b :: rest))
  | .reset :: rest => .over (resetBlock (s.setPending rest))

/-- Puts the command word `cmd` on the operation the block takes next: the one the host presents first, with its
operands, or one with idle operands where the host presents none first. -/
def placeCommand (cmd : Byte) (s : State) : State :=
  match s.pending with
  | .operation r :: rest => s.setPending (.operation { r with cmd := cmd } :: rest)
  | p => s.setPending (.operation { InputRecord.idle with cmd := cmd } :: p)

end Sys2Proof.Machine
end

