-- ==== Sys2Proof/Machine/DecodeOps.lean ====
section
/-! DEFINITION. The meanings of DECU and DECS (41_decode.md). -/

namespace Sys2Proof.Machine

/-- DECU does nothing to the accumulator at the end: it never sign-extends (R106, R108). -/
def decuExtend (_n : Nat) (_b : Byte) (acc : Value) : Value := acc

/-- DECS sign extension on the terminator byte `b`, the `n`-th byte (R112): bits 63 to `7*n` are set when `7*n < 64`
and bit 6 of `b` is set. -/
def decsExtend (n : Nat) (b : Byte) (acc : Value) : Value :=
  let sh := Config.groupBits * n
  if sh < Config.valueBits ∧ signBit b = true then acc ||| onesFrom sh else acc

/-- DECU: decode an unsigned 64-bit integer (R106). -/
def execDecu (s : State) : Host.Outcome State Fault Refusal := .next (decodeOp .decu decuExtend s)

/-- DECS: decode a signed 64-bit integer (R111). -/
def execDecs (s : State) : Host.Outcome State Fault Refusal := .next (decodeOp .decs decsExtend s)

end Sys2Proof.Machine
end

