-- ==== Sys2Proof/Machine/EncodeOps.lean ====
section
/-! DEFINITION. The meanings of ENCU and ENCS (40_encode.md). -/

namespace Sys2Proof.Machine

/-- One iteration of ENCU (R81): the shift is logical, and the flag is set while any bit remains. -/
def encuIter (w : EncWork) : EncWork :=
  let g := lowGroup w.rem
  let rem := w.rem >>> Config.groupBits
  if rem ≠ 0#64 then emit w rem (groupByte true g) .emitting else emit w rem (groupByte false g) .done

/-- One iteration of ENCS (R86): the shift is arithmetic, and the last group is the one whose sign bit agrees with
a rest of all zeros or all ones. -/
def encsIter (w : EncWork) : EncWork :=
  let g := lowGroup w.rem
  let sign := g.getLsbD 6
  let rem := w.rem.sshiftRight Config.groupBits
  if (rem = 0#64 ∧ sign = false) ∨ (rem = 0xFFFFFFFFFFFFFFFF#64 ∧ sign = true) then
    emit w rem (groupByte false g) .done
  else emit w rem (groupByte true g) .emitting

/-- ENCU: append-encode an unsigned 64-bit integer (R81). -/
def execEncu (s : State) : Host.Outcome State Fault Refusal := .next (encodeOp encuIter s)

/-- ENCS: append-encode a signed 64-bit integer (R86). -/
def execEncs (s : State) : Host.Outcome State Fault Refusal := .next (encodeOp encsIter s)

end Sys2Proof.Machine
end

