-- ==== Sys2Proof/Machine/Dispatch.lean ====
section
/-! DEFINITION. The meaning of each instruction, one arm per constructor. -/

namespace Sys2Proof.Machine

def exec (i : Instr) (s : State) : Host.Outcome State Fault Refusal :=
  match i with
  | .encu => Sys2Proof.Machine.execEncu s
  | .encs => Sys2Proof.Machine.execEncs s
  | .decu => Sys2Proof.Machine.execDecu s
  | .decs => Sys2Proof.Machine.execDecs s

end Sys2Proof.Machine
end

