-- ==== Sys2Proof/Machine/Step.lean ====
section
/-! DEFINITION. One step: one host event, and with it one whole operation (10_state.md R22). -/

namespace Sys2Proof.Machine

/-- One step of the machine. A block the host presents nothing to waits and does not change. -/
def step (s : State) : Host.Outcome State Fault Refusal :=
  match fetch s with
  | .idle => .next s
  | .run i t => exec i t
  | .over t => .next t
  | .refuse r => .refused r

/-- `s` with the command word of the table word `w` presented next. A table word is one byte, so the bits above it
are none. -/
def State.withFetchWord (s : State) (nbits w : Nat) : State := placeCommand (BitVec.ofNat 8 (w % 2 ^ nbits)) s

end Sys2Proof.Machine
end

