-- ==== Sys2Proof/Machine/Encoding.lean ====
section
/-! DEFINITION. The LEB128 format itself (30_encoding.md R61 to R66): well-formed encodings, the values they stand
for, and the minimal lengths. The operations do not call these; statements hold the operations against them. -/

namespace Sys2Proof.Machine

/-- A well-formed encoding (R61): 1 to 10 bytes, the flag set on every byte but the last and clear on the last. -/
def wellFormedEncoding (enc : List Byte) : Bool :=
  decide (1 ≤ enc.length) && decide (enc.length ≤ Config.maxGroups) && enc.dropLast.all contFlag &&
    enc.getLast?.any fun b => !contFlag b

/-- The groups of `enc` assembled from group number `j` on. -/
def groupsFrom (j : Nat) : List Byte → Value
  | [] => 0#64
  | b :: bs => groupTerm j b ||| groupsFrom (j + 1) bs

/-- The unsigned value of an encoding (R62). -/
def unsignedValue (enc : List Byte) : Value := groupsFrom 0 enc

/-- The signed value of an encoding (R63), with the extension boundary `7*n` (90_conflicts.md C2). -/
def signedValue (enc : List Byte) : Value :=
  let n := enc.length
  let negative := enc.getLast?.any signBit
  if Config.groupBits * n < Config.valueBits ∧ negative = true then
    unsignedValue enc ||| onesFrom (Config.groupBits * n)
  else unsignedValue enc

/-- The length of the encoding at the start of a sequence (R64): one more than the index of the first byte of the
window with the flag clear. -/
def encodingLength? (bytesIn : List Byte) : Option Nat :=
  ((window bytesIn).findIdx? fun b => !contFlag b).map (· + 1)

/-- `bitlen` (R65). -/
def bitLength (n : Nat) : Nat := if n = 0 then 0 else Nat.log2 n + 1

/-- `n_u`, the minimal unsigned length (R65). -/
def minLengthUnsigned (v : Value) : Nat := max 1 ((bitLength (asU64 v) + 6) / 7)

/-- `n_s`, the minimal signed length (R66). -/
def minLengthSigned (v : Value) : Nat :=
  if 0 ≤ asS64 v then (bitLength (asU64 v) + 1 + 6) / 7 else (bitLength (asU64 (~~~ v)) + 1 + 6) / 7

end Sys2Proof.Machine
end

