-- ==== Sys2Proof/Safety.lean ====
section
/-! DEFINITION. The terms statements use: the host's duties, the invariant, the result of an outcome, when two result
records agree, and the encodings the encoders' rules describe. -/

namespace Sys2Proof.Machine

/-- A legal command word (30_encoding.md R74). -/
def LegalCommand (cmd : Byte) : Prop := cmd.extractLsb' 2 6 = 0#6

/-- The host's duties of 10_state.md R27 for one event: legal command words, and serialised appends. -/
def HostEvent.Dutiful : HostEvent → Prop
  | .operation r => LegalCommand r.cmd
  | .interrupted r => LegalCommand r.cmd
  | .concurrent a b shared =>
    LegalCommand a.cmd ∧ LegalCommand b.cmd ∧ ¬ (shared = true ∧ appends a.cmd = true ∧ appends b.cmd = true)
  | .reset => True

/-- A safe state: the host keeps its duties in everything it has presented. -/
def Safe (s : State) : Prop := ∀ e ∈ s.pending, e.Dutiful

/-- How many steps the presented events take. -/
def stepsLeft : List HostEvent → Nat
  | [] => 0
  | .concurrent _ _ _ :: rest => 2 + stepsLeft rest
  | .operation _ :: rest => 1 + stepsLeft rest
  | .interrupted _ :: rest => 1 + stepsLeft rest
  | .reset :: rest => 1 + stepsLeft rest

/-- The value a host may use (70_reset_and_hazards.md R155): only that of a decode whose `count` is not 0. -/
def ResultRecord.usableValue : ResultRecord → Option Value
  | .encoded _ _ => none
  | .decoded v count _ => if count = 0#8 then none else some v

/-- How far a host may advance its cursor (R157): by a `count` that is not 0. -/
def ResultRecord.cursorAdvance : ResultRecord → Option Nat
  | .encoded _ _ => none
  | .decoded _ count _ => if count = 0#8 then none else some count.toNat

/-- Two result records agree in everything but the draw `FAIL_VALUE` (20_memory.md R45). -/
def ResultRecord.Agrees : ResultRecord → ResultRecord → Prop
  | .encoded e o, .encoded e' o' => e = e' ∧ o = o'
  | .decoded v c f, .decoded v' c' f' => c = c' ∧ f = f' ∧ (c ≠ 0#8 → v = v')
  | .encoded _ _, .decoded _ _ _ => False
  | .decoded _ _ _, .encoded _ _ => False

/-- Both sides have a result record, and the two agree. -/
def SameResult : Option ResultRecord → Option ResultRecord → Prop
  | some a, some b => a.Agrees b
  | some _, none => False
  | none, _ => False

/-- The result record an outcome delivers. -/
def resultOf : Host.Outcome State Fault Refusal → Option ResultRecord
  | .next t => t.result
  | .fault _ => none
  | .refused _ => none

/-- The `fail_cause` output of a decode with outcome code `code` (60_exceptions.md R134). -/
def causeField (build : Build) (code : BitVec 2) : Option (BitVec 2) := if build.richErrors = true then some code else none

/-- Every byte of the window has its flag set (41_decode.md R104). -/
def NoTerminator (bytesIn : List Byte) : Prop := ∀ b ∈ bytesIn.take 10, b.getLsbD 7 = true

/-- The encoder working state between operations. -/
def EncWork.Inv (w : EncWork) : Prop :=
  w.k = w.enc.length ∧ w.k ≤ 10 ∧ (w.phase = .done → wellFormedEncoding w.enc = true) ∧
    (w.phase = .emitting → w.enc = [])

/-- The decoder working state between operations. -/
def DecWork.Inv (w : DecWork) : Prop :=
  w.i ≤ 10 ∧ (w.phase = .done → 1 ≤ w.i) ∧ (w.phase = .readingGroup → w.i = 0)

/-- A result record as 10_state.md R26 and 60_exceptions.md R133 and R134 have it: a well-formed encoding at the end
of `Out`, or a count from 0 to 10 with a cause output exactly in the rich build, whose code is never 3 and is 0
exactly on success. -/
def ResultRecord.Inv (build : Build) : ResultRecord → Prop
  | .encoded enc out => wellFormedEncoding enc = true ∧ ∃ p, out = p ++ enc
  | .decoded _ count cause =>
    count.toNat ≤ 10 ∧ cause.isSome = build.richErrors ∧
      ∀ code, cause = some code → code ≠ 3#2 ∧ (code = 0#2 ↔ count ≠ 0#8)

/-- The invariant of the machine. -/
def State.Inv (s : State) : Prop :=
  s.encWork.Inv ∧ s.decWork.Inv ∧ ∀ r, s.result = some r → r.Inv s.build

/-- The bytes ENCU's loop emits for a remaining value (40_encode.md R81), as a relation. -/
inductive EncuEmits : Value → List Byte → Prop where
  | final (v : Value) : v >>> 7 = 0#64 → EncuEmits v [(v.setWidth 7).setWidth 8]
  | more (v : Value) (bs : List Byte) : v >>> 7 ≠ 0#64 → EncuEmits (v >>> 7) bs →
      EncuEmits v ((0x80#8 ||| (v.setWidth 7).setWidth 8) :: bs)

/-- ENCS stops after the group of `v` (40_encode.md R86). -/
def EncsStops (v : Value) : Prop :=
  (v.sshiftRight 7 = 0#64 ∧ v.getLsbD 6 = false) ∨ (v.sshiftRight 7 = BitVec.allOnes 64 ∧ v.getLsbD 6 = true)

/-- The bytes ENCS's loop emits for a remaining value (R86), as a relation. -/
inductive EncsEmits : Value → List Byte → Prop where
  | final (v : Value) : EncsStops v → EncsEmits v [(v.setWidth 7).setWidth 8]
  | more (v : Value) (bs : List Byte) : ¬ EncsStops v → EncsEmits (v.sshiftRight 7) bs →
      EncsEmits v ((0x80#8 ||| (v.setWidth 7).setWidth 8) :: bs)

/-- An encoding made longer by `p + 1` redundant groups `fill` (41_decode.md R115). -/
def padEncoding (fill : Group) (p : Nat) (enc : List Byte) : List Byte :=
  enc.map (0x80#8 ||| ·) ++ List.replicate p (0x80#8 ||| fill.setWidth 8) ++ [fill.setWidth 8]

end Sys2Proof.Machine
end

