-- ==== Sys2Proof/Certificates/Slice0/Obligations.lean ====
section
/-! DEFINITION. The statements for the provers. -/

open Sys2Proof Sys2Proof.Machine

/-! ### The command word -/

/-- The four command words of the opcode map (30_encoding.md R71), written out bit by bit. -/
def Obligations.CommandWordsSelectOperations : Prop :=
  decode 0b00000000#8 = .ok .encu ∧ decode 0b00000001#8 = .ok .encs ∧
  decode 0b00000010#8 = .ok .decu ∧ decode 0b00000011#8 = .ok .decs

/-- 30_encoding.md R74: the legal words are exactly 0x00 to 0x03, all four values of `op` name an operation, and none
is a hint or a no-op: each legal word's operation delivers a result record. -/
def Obligations.LegalCommandsAreTheFourOperations : Prop :=
  (∀ cmd : Byte, (∃ i, decode cmd = .ok i) ↔ cmd.toNat ≤ 3) ∧
  (∀ op : BitVec 2, ∃ i, decode (0#6 ++ op) = .ok i) ∧
  (∀ (cmd : Byte) (i : Instr) (s : State), decode cmd = .ok i → ∃ t r, exec i s = .next t ∧ t.result = some r)

/-- Decoding and encoding the command word are inverse to each other (30_encoding.md R70, R71). -/
def Obligations.DecodeIffEncode : Prop :=
  ∀ (i : Instr) (cmd : Byte), decode cmd = .ok i ↔ cmd = encode i

/-- 60_exceptions.md R136: a command word with bits 7:2 not 0 is refused before any operation starts. -/
def Obligations.IllegalCommandRefused : Prop :=
  ∀ (s : State) (r : InputRecord) (rest : List HostEvent),
    s.pending = .operation r :: rest → r.cmd.extractLsb' 2 6 ≠ 0#6 → step s = .refused (.illegalCommand r.cmd)

/-- The machine's step is `exec` of the decoded instruction: the record goes to the port, the event is taken from the
host's list; of two operations presented together the second stays first in the list. The list and the events are the
model's form (log entries 2, 4). -/
def Obligations.StepRunsDecodedInstruction : Prop :=
  (∀ (s : State) (r : InputRecord) (rest : List HostEvent) (i : Instr),
    s.pending = .operation r :: rest → decode r.cmd = .ok i →
      step s = exec i { s with port := r, pending := rest }) ∧
  (∀ (s : State) (a b : InputRecord) (shared : Bool) (rest : List HostEvent) (i : Instr),
    s.pending = .concurrent a b shared :: rest → decode a.cmd = .ok i →
    ¬ (shared = true ∧ appends a.cmd = true ∧ appends b.cmd = true) →
      step s = exec i { s with port := a, pending := .operation b :: rest })

/-- The model's choice (log entry 2): a block to which the host presents nothing waits unchanged. -/
def Obligations.IdleBlockWaits : Prop :=
  ∀ s : State, s.pending = [] → step s = .next s

/-! ### Reset -/

/-- 70_reset_and_hazards.md R150: after reset no result record exists, and the block is ready to accept an operation. -/
def Obligations.ResetIsReadyWithoutResult : Prop :=
  State.reset.result = none ∧ State.reset.build.richErrors = false ∧
  ∀ (i : Instr) (r : InputRecord), decode r.cmd = .ok i →
    ∃ t out, step { State.reset with pending := [.operation r] } = .next t ∧ t.result = some out

/-- Reset between operations: from 70_reset_and_hazards.md R150 and R153, no result record exists and the build is as it
was. The model's choice: the form of the event (log entry 4), the working state it leaves (log entry 1), that the
host's record stays at the port (log entry 11), the host's list (log entry 2) and that the draw counter stands (log
entry 3). -/
def Obligations.ResetEvent : Prop :=
  ∀ (s : State) (rest : List HostEvent), s.pending = .reset :: rest →
    step s = .next { s with pending := rest, encWork := State.reset.encWork, decWork := State.reset.decWork,
                            result := none }

/-- From 70_reset_and_hazards.md R152: an operation in progress at reset is abandoned, no result record is delivered, and
the block is then as after a reset of R150. The model's choice: that the event answers a next state (log entry 4), that
the host's record stays at the port (log entries 4, 11), and that the event is taken from the host's list (log entry 2). -/
def Obligations.InterruptedOperationHasNoResult : Prop :=
  ∀ (s : State) (r : InputRecord) (rest : List HostEvent),
    s.pending = .interrupted r :: rest → LegalCommand r.cmd →
    ∃ t, step s = .next t ∧ t.result = none ∧ t.port = r ∧ t.pending = rest ∧
      step { s with port := r, pending := .reset :: rest } = .next t

/-! ### The encoders -/

/-- From 40_encode.md R81: ENCU delivers the bytes its loop emits, appended to `Prefix`, and its working state ends at
DONE; no flag exists, and the build is as it was (10_state.md R24). 624485 gives `e5 8e 26`. The model's choice in the
whole-state equation: that the decoders' working state stands (log entry 10; 70_reset_and_hazards.md R153 calls it
unspecified), that the host's record stays at the port (log entry 11), the host's list (log entry 2) and the draw
counter (log entry 3). -/
def Obligations.EncuResult : Prop :=
  (∀ s : State, ∃ enc : List Byte, EncuEmits s.port.valueIn enc ∧
    exec .encu s = .next { s with
      encWork := { rem := 0#64, k := enc.length, enc := enc, phase := .done },
      result := some (.encoded enc (s.port.prefixIn ++ enc)) }) ∧
  (∀ s : State, s.port.valueIn = 624485#64 →
    resultOf (exec .encu s) =
      some (.encoded [0xe5#8, 0x8e#8, 0x26#8] (s.port.prefixIn ++ [0xe5#8, 0x8e#8, 0x26#8])))

/-- From 40_encode.md R86: ENCS delivers the bytes its loop emits, appended to `Prefix`, and its working state ends at
DONE with a rest of all copies of the sign; no flag exists, and the build is as it was (10_state.md R24). -624485 gives
`9b f1 59`. The model's choice in the
whole-state equation: that the decoders' working state stands (log entry 10; 70_reset_and_hazards.md R153 calls it
unspecified), that the host's record stays at the port (log entry 11), the host's list (log entry 2) and the draw
counter (log entry 3). -/
def Obligations.EncsResult : Prop :=
  (∀ s : State, ∃ enc : List Byte, EncsEmits s.port.valueIn enc ∧
    exec .encs s = .next { s with
      encWork := { rem := if s.port.valueIn.getLsbD 63 = true then BitVec.allOnes 64 else 0#64,
                   k := enc.length, enc := enc, phase := .done },
      result := some (.encoded enc (s.port.prefixIn ++ enc)) }) ∧
  (∀ s : State, s.port.valueIn = BitVec.ofInt 64 (-624485) →
    resultOf (exec .encs s) =
      some (.encoded [0x9b#8, 0xf1#8, 0x59#8] (s.port.prefixIn ++ [0x9b#8, 0xf1#8, 0x59#8])))

/-- 40_encode.md R82: ENCU ends after 1 to 10 iterations with a well-formed encoding. After 9 iterations the rest is
bit 63 of the value: where it is 0 there are at most 9 bytes, where it is 1 there are 10 and the last is 0x01. -/
def Obligations.EncuEndsWellFormed : Prop :=
  ∀ s : State, ∃ (t : State) (enc : List Byte), exec .encu s = .next t ∧
    t.result = some (.encoded enc (s.port.prefixIn ++ enc)) ∧
    t.encWork.phase = .done ∧ t.encWork.k = enc.length ∧
    1 ≤ enc.length ∧ enc.length ≤ 10 ∧ wellFormedEncoding enc = true ∧
    (encRun encuIter 9 (EncWork.start s.port.valueIn)).rem = s.port.valueIn >>> 63 ∧
    (s.port.valueIn >>> 63 = 0#64 → enc.length ≤ 9) ∧
    (s.port.valueIn >>> 63 = 1#64 → enc.length = 10 ∧ enc.getLast? = some 0x01#8)

/-- 40_encode.md R87: ENCS ends after 1 to 10 iterations with a well-formed encoding. After 9 iterations the rest is
all copies of the sign, a 10th shift would leave it unchanged, and a 10th
byte is 0x00 or 0x7f accordingly. -/
def Obligations.EncsEndsWellFormed : Prop :=
  ∀ s : State, ∃ (t : State) (enc : List Byte), exec .encs s = .next t ∧
    t.result = some (.encoded enc (s.port.prefixIn ++ enc)) ∧
    t.encWork.phase = .done ∧ t.encWork.k = enc.length ∧
    1 ≤ enc.length ∧ enc.length ≤ 10 ∧ wellFormedEncoding enc = true ∧
    (encRun encsIter 9 (EncWork.start s.port.valueIn)).rem = s.port.valueIn.sshiftRight 63 ∧
    (s.port.valueIn.sshiftRight 63 = 0#64 ∨ s.port.valueIn.sshiftRight 63 = BitVec.allOnes 64) ∧
    t.encWork.rem = s.port.valueIn.sshiftRight 63 ∧
    (enc.length = 10 → enc.getLast? =
      some (if s.port.valueIn.getLsbD 63 = true then 0x7f#8 else 0x00#8))

/-- 40_encode.md R84: ENCU is minimal. Its length is `n_u`, no well-formed encoding of the value is shorter, and the
terminator of a longer encoding is not 0x00. -/
def Obligations.EncuIsMinimal : Prop :=
  ∀ s : State, ∃ (t : State) (enc : List Byte), exec .encu s = .next t ∧
    t.result = some (.encoded enc (s.port.prefixIn ++ enc)) ∧
    enc.length = minLengthUnsigned s.port.valueIn ∧
    (1 < enc.length → enc.getLast? ≠ some 0x00#8) ∧
    ∀ B, wellFormedEncoding B = true → unsignedValue B = s.port.valueIn → enc.length ≤ B.length

/-- 40_encode.md R89: ENCS is minimal. Its length is `n_s`, and no well-formed encoding whose signed value is the
operand is shorter. -/
def Obligations.EncsIsMinimal : Prop :=
  ∀ s : State, ∃ (t : State) (enc : List Byte), exec .encs s = .next t ∧
    t.result = some (.encoded enc (s.port.prefixIn ++ enc)) ∧
    enc.length = minLengthSigned s.port.valueIn ∧ enc.length ≤ 10 ∧ signedValue enc = s.port.valueIn ∧
    ∀ B, wellFormedEncoding B = true → signedValue B = s.port.valueIn → enc.length ≤ B.length

/-- 30_encoding.md R65: the length of ENCU's encoding, by bit length and by range. -/
def Obligations.UnsignedLengthByRange : Prop :=
  ∀ s : State, ∃ (t : State) (enc : List Byte), exec .encu s = .next t ∧
    t.result = some (.encoded enc (s.port.prefixIn ++ enc)) ∧
    (∀ bits : Nat, s.port.valueIn.toNat < 2 ^ bits → (bits = 0 ∨ 2 ^ (bits - 1) ≤ s.port.valueIn.toNat) →
      enc.length = max 1 ((bits + 6) / 7)) ∧
    (enc.length = 1 ↔ s.port.valueIn.toNat ≤ 127) ∧
    (∀ n : Nat, 2 ≤ n → n ≤ 9 →
      (enc.length = n ↔ 2 ^ (7 * (n - 1)) ≤ s.port.valueIn.toNat ∧ s.port.valueIn.toNat < 2 ^ (7 * n))) ∧
    (enc.length = 10 ↔ 2 ^ 63 ≤ s.port.valueIn.toNat)

/-- 30_encoding.md R66: the length of ENCS's encoding, by bit length and by range. -/
def Obligations.SignedLengthByRange : Prop :=
  ∀ s : State, ∃ (t : State) (enc : List Byte), exec .encs s = .next t ∧
    t.result = some (.encoded enc (s.port.prefixIn ++ enc)) ∧
    (∀ m bits : Nat, (m : Int) = (if 0 ≤ s.port.valueIn.toInt then s.port.valueIn.toInt else -s.port.valueIn.toInt - 1) →
      m < 2 ^ bits → (bits = 0 ∨ 2 ^ (bits - 1) ≤ m) → enc.length = (bits + 1 + 6) / 7) ∧
    (enc.length = 1 ↔ -64 ≤ s.port.valueIn.toInt ∧ s.port.valueIn.toInt ≤ 63) ∧
    (∀ n : Nat, 2 ≤ n → n ≤ 10 →
      (enc.length = n ↔
        (-(2 : Int) ^ (7 * n - 1) ≤ s.port.valueIn.toInt ∧ s.port.valueIn.toInt ≤ 2 ^ (7 * n - 1) - 1) ∧
        ¬ (-(2 : Int) ^ (7 * (n - 1) - 1) ≤ s.port.valueIn.toInt ∧
           s.port.valueIn.toInt ≤ 2 ^ (7 * (n - 1) - 1) - 1)))

/-- 40_encode.md R80: `Out` is `Prefix` followed by `Enc`, and `Enc` does not depend on `Prefix` (nor on anything but
the value). -/
def Obligations.EncodersAppend : Prop :=
  ∀ (i : Instr) (s s' : State), i = .encu ∨ i = .encs → s.port.valueIn = s'.port.valueIn →
    ∃ (enc : List Byte) (t t' : State), exec i s = .next t ∧ exec i s' = .next t' ∧
      t.result = some (.encoded enc (s.port.prefixIn ++ enc)) ∧
      t'.result = some (.encoded enc (s'.port.prefixIn ++ enc))

/-- 40_encode.md R83: ENCU never fails, `Enc` is a function of the value alone, and two different values give two
different encodings. -/
def Obligations.EncuIsUnique : Prop :=
  ∃ f : Value → List Byte,
    (∀ s : State, resultOf (exec .encu s) =
      some (.encoded (f s.port.valueIn) (s.port.prefixIn ++ f s.port.valueIn))) ∧
    (∀ v v' : Value, f v = f v' → v = v')

/-- 60_exceptions.md R130: ENCU and ENCS produce a result for every value. -/
def Obligations.EncodersNeverFail : Prop :=
  ∀ (i : Instr) (s : State), i = .encu ∨ i = .encs →
    ∃ (t : State) (enc out : List Byte), exec i s = .next t ∧ t.result = some (.encoded enc out)

/-- 40_encode.md R91: on a non-negative value ENCS gives ENCU's bytes, with the last one continued and a zero group
after it where ENCU's last group has bit 6 set. -/
def Obligations.EncsFromEncuWhenNonNegative : Prop :=
  ∀ s : State, 0 ≤ s.port.valueIn.toInt →
    ∃ (init : List Byte) (last : Byte),
      resultOf (exec .encu s) =
        some (.encoded (init ++ [last]) (s.port.prefixIn ++ (init ++ [last]))) ∧
      (last.getLsbD 6 = false → resultOf (exec .encs s) = resultOf (exec .encu s)) ∧
      (last.getLsbD 6 = true → resultOf (exec .encs s) =
        some (.encoded (init ++ [0x80#8 ||| last, 0x00#8])
          (s.port.prefixIn ++ (init ++ [0x80#8 ||| last, 0x00#8]))))

/-- 20_memory.md R41, for the encoders: byte `j` carries value bits `7j+6:7j`; above bit 63 ENCU gives zeros and ENCS
copies of the sign. -/
def Obligations.EncodersLeastSignificantGroupFirst : Prop :=
  ∀ s : State, ∃ (t u : State) (e e' : List Byte), exec .encu s = .next t ∧ exec .encs s = .next u ∧
    t.result = some (.encoded e (s.port.prefixIn ++ e)) ∧ u.result = some (.encoded e' (s.port.prefixIn ++ e')) ∧
    (∀ (j : Nat) (h : j < e.length) (b : Nat), b < 7 → e[j].getLsbD b = s.port.valueIn.getLsbD (7 * j + b)) ∧
    (∀ (j : Nat) (h : j < e'.length) (b : Nat), b < 7 →
      e'[j].getLsbD b = s.port.valueIn.getLsbD (min (7 * j + b) 63))

/-- The corner cases of 40_encode.md R85 and R90. -/
def Obligations.EncoderCornerCases : Prop :=
  (∀ (v : Value) (enc : List Byte) (s : State),
    (v, enc) ∈ [((0#64 : Value), [0x00#8]), (127#64, [0x7f#8]), (128#64, [0x80#8, 0x01#8]),
      (16383#64, [0xff#8, 0x7f#8]), (16384#64, [0x80#8, 0x80#8, 0x01#8]),
      (0x7fffffffffffffff#64, List.replicate 8 0xff#8 ++ [0x7f#8]),
      (0x8000000000000000#64, List.replicate 9 0x80#8 ++ [0x01#8]),
      (0xffffffffffffffff#64, List.replicate 9 0xff#8 ++ [0x01#8])] →
    s.port.valueIn = v → resultOf (exec .encu s) = some (.encoded enc (s.port.prefixIn ++ enc))) ∧
  (∀ (v : Value) (enc : List Byte) (s : State),
    (v, enc) ∈ [((0#64 : Value), [0x00#8]), (BitVec.ofInt 64 (-1), [0x7f#8]), (63#64, [0x3f#8]),
      (64#64, [0xc0#8, 0x00#8]), (BitVec.ofInt 64 (-64), [0x40#8]), (BitVec.ofInt 64 (-65), [0xbf#8, 0x7f#8]),
      (127#64, [0xff#8, 0x00#8]), (BitVec.ofInt 64 (-128), [0x80#8, 0x7f#8]),
      (0x3fffffffffffffff#64, List.replicate 8 0xff#8 ++ [0x3f#8]),
      (0x4000000000000000#64, List.replicate 8 0x80#8 ++ [0xc0#8, 0x00#8]),
      (0xc000000000000000#64, List.replicate 8 0x80#8 ++ [0x40#8]),
      (0x7fffffffffffffff#64, List.replicate 9 0xff#8 ++ [0x00#8]),
      (0x8000000000000000#64, List.replicate 9 0x80#8 ++ [0x7f#8])] →
    s.port.valueIn = v → resultOf (exec .encs s) = some (.encoded enc (s.port.prefixIn ++ enc)))

/-- What the encoders leave unchanged: the build (10_state.md R24), and the other fields they do not write. The block has
no register, flag or memory (R20, R23, R31). The model's choice: that the decoders' working state stands between
operations (log entry 10; the spec carries no state between operations, R22, and calls it unspecified,
70_reset_and_hazards.md R153), that the host's record stays at the port (log entry 11), the host's list (log entry 2)
and the draw counter (log entry 3). -/
def Obligations.EncodersFrame : Prop :=
  ∀ (i : Instr) (s t : State), i = .encu ∨ i = .encs → exec i s = .next t →
    t.port = s.port ∧ t.pending = s.pending ∧ t.build = s.build ∧ t.decWork = s.decWork ∧ t.draws = s.draws

/-! ### The decoders -/

/-- From 41_decode.md R106: DECU of any input that begins with a well-formed encoding gives its unsigned value and its
length, with its working state at DONE; no flag exists, and the build is as it was (10_state.md R24). Of any other input
it fails with count 0, with cause OVERLONG (2) for 10 bytes or more and TRUNCATED (1) for fewer.
The model's choice in the whole-state equation of success: that the encoders'
working state stands (log entry 10; 70_reset_and_hazards.md R153 calls it unspecified), that the host's record stays at
the port (log entry 11), the host's list (log entry 2) and the draw counter (log entry 3). -/
def Obligations.DecuResult : Prop :=
  (∀ (s : State) (B T : List Byte), wellFormedEncoding B = true → s.port.bytesIn = B ++ T →
    exec .decu s = .next { s with
      decWork := { acc := unsignedValue B, i := B.length, phase := .done },
      result := some (.decoded (unsignedValue B) (BitVec.ofNat 8 B.length) (causeField s.build 0#2)) }) ∧
  (∀ s : State, NoTerminator s.port.bytesIn → ∃ (t : State) (v : Value), exec .decu s = .next t ∧
    t.result = some (.decoded v 0#8 (causeField s.build (if 10 ≤ s.port.bytesIn.length then 2#2 else 1#2)))) ∧
  (∀ l : List Byte, NoTerminator l ∨ ∃ B T, wellFormedEncoding B = true ∧ l = B ++ T)

/-- From 41_decode.md R111: DECS, as DECU with the signed value of 30_encoding.md R63.
The model's choice in the whole-state equation of success: that the encoders'
working state stands (log entry 10; 70_reset_and_hazards.md R153 calls it unspecified), that the host's record stays at
the port (log entry 11), the host's list (log entry 2) and the draw counter (log entry 3). -/
def Obligations.DecsResult : Prop :=
  (∀ (s : State) (B T : List Byte), wellFormedEncoding B = true → s.port.bytesIn = B ++ T →
    exec .decs s = .next { s with
      decWork := { acc := signedValue B, i := B.length, phase := .done },
      result := some (.decoded (signedValue B) (BitVec.ofNat 8 B.length) (causeField s.build 0#2)) }) ∧
  (∀ s : State, NoTerminator s.port.bytesIn → ∃ (t : State) (v : Value), exec .decs s = .next t ∧
    t.result = some (.decoded v 0#8 (causeField s.build (if 10 ≤ s.port.bytesIn.length then 2#2 else 1#2)))) ∧
  (∀ l : List Byte, NoTerminator l ∨ ∃ B T, wellFormedEncoding B = true ∧ l = B ++ T)

/-- 41_decode.md R104: a decode fails exactly when no byte of the window has bit 7 = 0. -/
def Obligations.DecodeFailsIffNoTerminator : Prop :=
  ∀ (i : Instr) (s : State), i = .decu ∨ i = .decs →
    ∃ (t : State) (v : Value) (c : Byte) (f : Option (BitVec 2)), exec i s = .next t ∧
      t.result = some (.decoded v c f) ∧
      (c = 0#8 ↔ ∀ (j : Nat) (h : j < s.port.bytesIn.length), j < 10 → s.port.bytesIn[j].getLsbD 7 = true)

/-- 30_encoding.md R64 and 41_decode.md R102: the count is the length found by scanning from byte 0 for the first byte
with bit 7 clear, and 0 when none lies in the first 10 bytes. -/
def Obligations.CountIsTheScannedLength : Prop :=
  ∀ (i : Instr) (s : State), i = .decu ∨ i = .decs →
    ∃ (t : State) (v : Value) (c : Byte) (f : Option (BitVec 2)), exec i s = .next t ∧
      t.result = some (.decoded v c f) ∧ c.toNat = (encodingLength? s.port.bytesIn).getD 0

/-- 60_exceptions.md R135: every decode has exactly one outcome, in the order NONE, OVERLONG, TRUNCATED. -/
def Obligations.DecodeOutcomePriority : Prop :=
  ∀ (i : Instr) (s : State), i = .decu ∨ i = .decs → s.build.richErrors = true →
    ∃ (t : State) (v : Value) (c : Byte), exec i s = .next t ∧
      t.result = some (.decoded v c (some
        (if (s.port.bytesIn.take 10).any (fun b => !b.getLsbD 7) = true then 0#2
         else if min s.port.bytesIn.length 10 = 10 then 2#2 else 1#2)))

/-- From 60_exceptions.md R134: the cause output exists only in the rich build, where it carries the code of R133; count
and value are the same in both. The default is the sentinel mode. On a failing decode the equal value is the model's
choice: both runs take one draw of the free value, at the same counter and on the same input (log entry 3); of the
hardware R103 and R155 give no such law. -/
def Obligations.CauseOutputOnlyInRichBuild : Prop :=
  Build.default.richErrors = false ∧
  ∀ (i : Instr) (s : State), i = .decu ∨ i = .decs →
    ∃ (v : Value) (c : Byte) (code : BitVec 2),
      resultOf (exec i { s with build := { richErrors := false } }) = some (.decoded v c none) ∧
      resultOf (exec i { s with build := { richErrors := true } }) = some (.decoded v c (some code)) ∧
      (code = 0#2 ↔ c ≠ 0#8) ∧ (c = 0#8 → code = if 10 ≤ s.port.bytesIn.length then 2#2 else 1#2)

/-- 41_decode.md R101: the result depends on the window only, but for the draw `FAIL_VALUE` (20_memory.md R45), and
bytes after the terminator do not affect it at all. -/
def Obligations.DecodersSeeOnlyTheWindow : Prop :=
  (∀ (i : Instr) (s s' : State), i = .decu ∨ i = .decs → s.build = s'.build →
    s.port.bytesIn.take 10 = s'.port.bytesIn.take 10 → SameResult (resultOf (exec i s)) (resultOf (exec i s'))) ∧
  (∀ (i : Instr) (s s' : State) (B T T' : List Byte), i = .decu ∨ i = .decs → s.build = s'.build →
    wellFormedEncoding B = true → s.port.bytesIn = B ++ T → s'.port.bytesIn = B ++ T' →
    resultOf (exec i s) = resultOf (exec i s'))

/-- 41_decode.md R105 and 20_memory.md R41, for DECU: value bit `j` is payload bit `j % 7` of byte `j / 7`, and 0 above
the encoding; payload bits at or above bit 64 are lost without a failure. -/
def Obligations.DecuValueBits : Prop :=
  ∀ (s : State) (B T : List Byte), wellFormedEncoding B = true → s.port.bytesIn = B ++ T →
    ∃ (t : State) (v : Value) (f : Option (BitVec 2)), exec .decu s = .next t ∧
      t.result = some (.decoded v (BitVec.ofNat 8 B.length) f) ∧
      ∀ j : Nat, j < 64 → v.getLsbD j = (decide (j < 7 * B.length) && (B.getD (j / 7) 0#8).getLsbD (j % 7))

/-- 41_decode.md R112: with `n = count`, the bits from `7*n` up are copies of bit 6 of the terminator when
`7*n < 64`; the bits below, the terminator's payload among them, are the payload bits; a 10-byte encoding is not
extended. -/
def Obligations.DecsSignExtension : Prop :=
  ∀ (s : State) (B T : List Byte), wellFormedEncoding B = true → s.port.bytesIn = B ++ T →
    ∃ (t : State) (v : Value) (f : Option (BitVec 2)), exec .decs s = .next t ∧
      t.result = some (.decoded v (BitVec.ofNat 8 B.length) f) ∧
      ∀ j : Nat, j < 64 →
        v.getLsbD j = if j < 7 * B.length then (B.getD (j / 7) 0#8).getLsbD (j % 7)
                      else (B.getD (B.length - 1) 0#8).getLsbD 6

/-- 41_decode.md R107 and R113: of a 10th byte only bit 0 has an effect, on bit 63, in both decoders; the other bits
come from bytes 0 to 8, and no sign extension happens. -/
def Obligations.TenthByteGivesBit63 : Prop :=
  ∀ (i : Instr) (s : State) (B T : List Byte), i = .decu ∨ i = .decs → wellFormedEncoding B = true →
    B.length = 10 → s.port.bytesIn = B ++ T →
    ∃ (t : State) (v : Value) (f : Option (BitVec 2)), exec i s = .next t ∧
      t.result = some (.decoded v 10#8 f) ∧ v.getLsbD 63 = (B.getD 9 0#8).getLsbD 0 ∧
      ∀ j : Nat, j < 63 → v.getLsbD j = (B.getD (j / 7) 0#8).getLsbD (j % 7)

/-- 41_decode.md R117: DECS fails exactly when DECU fails, with the same count, and its value is DECU's ORed with the
mask of R112. -/
def Obligations.DecsFromDecu : Prop :=
  ∀ s : State, ∃ (vu vs : Value) (c : Byte) (f : Option (BitVec 2)),
    resultOf (exec .decu s) = some (.decoded vu c f) ∧ resultOf (exec .decs s) = some (.decoded vs c f) ∧
    (c ≠ 0#8 → vs = vu |||
      (if 7 * c.toNat < 64 ∧ (s.port.bytesIn.getD (c.toNat - 1) 0#8).getLsbD 6 = true
       then (~~~ 0#64) <<< (7 * c.toNat) else 0#64))

/-- 41_decode.md R115: neither decoder checks minimality. An encoder's output padded with redundant groups to at most
10 bytes decodes to the same value, with the padded length as count. -/
def Obligations.PaddedEncodingsAccepted : Prop :=
  (∀ (s : State) (p : Nat), ∃ enc : List Byte,
    resultOf (exec .encu s) = some (.encoded enc (s.port.prefixIn ++ enc)) ∧
    (enc.length + p + 1 ≤ 10 → ∀ (u : State) (T : List Byte),
      u.port.bytesIn = padEncoding 0#7 p enc ++ T → ∃ u', exec .decu u = .next u' ∧
        u'.result = some (.decoded s.port.valueIn (BitVec.ofNat 8 (enc.length + p + 1)) (causeField u.build 0#2)))) ∧
  (∀ (s : State) (p : Nat), ∃ enc : List Byte,
    resultOf (exec .encs s) = some (.encoded enc (s.port.prefixIn ++ enc)) ∧
    (enc.length + p + 1 ≤ 10 → ∀ (u : State) (T : List Byte),
      u.port.bytesIn =
        padEncoding (if s.port.valueIn.getLsbD 63 = true then 0x7f#7 else 0#7) p enc ++ T →
      ∃ u', exec .decs u = .next u' ∧
        u'.result = some (.decoded s.port.valueIn (BitVec.ofNat 8 (enc.length + p + 1)) (causeField u.build 0#2))))

/-- The model's choice (log entry 3): a failing decode returns the free value's next draw and counts it. -/
def Obligations.FailingDecodeDrawsFreeValue : Prop :=
  ∀ (i : Instr) (s : State), i = .decu ∨ i = .decs → NoTerminator s.port.bytesIn →
    ∃ (t : State) (f : Option (BitVec 2)), exec i s = .next t ∧
      t.result = some (.decoded (Config.failValue s.draws i s.port.bytesIn) 0#8 f) ∧ t.draws = s.draws + 1

/-- What the decoders leave unchanged: the build (10_state.md R24), and the other fields they do not write. The block has
no register, flag or memory (R20, R23, R31), and a decoder writes no byte of its input (20_memory.md R40). The model's
choice: that the encoders' working state stands between operations (log entry 10; the spec carries no state between
operations, R22, and calls it unspecified, 70_reset_and_hazards.md R153), that the host's record stays at the port (log
entry 11), the host's list (log entry 2) and, on success, the draw counter (log entry 3). -/
def Obligations.DecodersFrame : Prop :=
  ∀ (i : Instr) (s t : State), i = .decu ∨ i = .decs → exec i s = .next t →
    t.port = s.port ∧ t.pending = s.pending ∧ t.build = s.build ∧ t.encWork = s.encWork ∧
    (∀ r, t.result = some r → r.usableValue ≠ none → t.draws = s.draws)

/-- 70_reset_and_hazards.md R155 and R157: the value is usable and the cursor may advance exactly when the decode
succeeds; the advance stays within the buffer; and after a failure the same decode fails again. That the same input is
still at the port then is the model's form (log entry 11). -/
def Obligations.CursorStaysInBuffer : Prop :=
  ∀ (i : Instr) (s : State), i = .decu ∨ i = .decs →
    ∃ (t : State) (r : ResultRecord), exec i s = .next t ∧ t.result = some r ∧
      (r.usableValue = none ↔ r.cursorAdvance = none) ∧
      (∀ n, r.cursorAdvance = some n → 1 ≤ n ∧ n ≤ min s.port.bytesIn.length 10) ∧
      (r.cursorAdvance = none → ∃ (t' : State) (r' : ResultRecord), exec i t = .next t' ∧
        t'.result = some r' ∧ r'.cursorAdvance = none)

/-! ### Both directions -/

/-- 41_decode.md R110: decoding what ENCU gave, with any bytes after it, gives back the value and the length. -/
def Obligations.UnsignedRoundTrip : Prop :=
  ∀ s : State, ∃ (t : State) (enc : List Byte), exec .encu s = .next t ∧
    t.result = some (.encoded enc (s.port.prefixIn ++ enc)) ∧
    ∀ (u : State) (T : List Byte), u.port.bytesIn = enc ++ T → ∃ u', exec .decu u = .next u' ∧
      u'.result = some (.decoded s.port.valueIn (BitVec.ofNat 8 enc.length) (causeField u.build 0#2))

/-- 41_decode.md R114: decoding what ENCS gave, with any bytes after it, gives back the value and the length. -/
def Obligations.SignedRoundTrip : Prop :=
  ∀ s : State, ∃ (t : State) (enc : List Byte), exec .encs s = .next t ∧
    t.result = some (.encoded enc (s.port.prefixIn ++ enc)) ∧
    ∀ (u : State) (T : List Byte), u.port.bytesIn = enc ++ T → ∃ u', exec .decs u = .next u' ∧
      u'.result = some (.decoded s.port.valueIn (BitVec.ofNat 8 enc.length) (causeField u.build 0#2))

/-- 30_encoding.md R76 and 10_state.md R27: a value appended to a host buffer is read back from the buffer, whatever
the host appends later, by a decode at the old end of the buffer, and the cursor advances by the encoding's length. Each
statement is presented as an event to a block just reset (log entry 2). -/
def Obligations.StreamReadsBackAtCursor : Prop :=
  ∀ (buf T : List Byte) (v : Value),
    (∃ (t u : State) (enc : List Byte) (r : ResultRecord),
      step { State.reset with pending := [.operation (Asm.encu buf v).record] } = .next t ∧
      t.result = some (.encoded enc (buf ++ enc)) ∧
      step { State.reset with pending := [.operation (Asm.decu (buf ++ enc ++ T) buf.length).record] } = .next u ∧
      u.result = some r ∧ r.usableValue = some v ∧ r.cursorAdvance = some enc.length) ∧
    (∃ (t u : State) (enc : List Byte) (r : ResultRecord),
      step { State.reset with pending := [.operation (Asm.encs buf v).record] } = .next t ∧
      t.result = some (.encoded enc (buf ++ enc)) ∧
      step { State.reset with pending := [.operation (Asm.decs (buf ++ enc ++ T) buf.length).record] } = .next u ∧
      u.result = some r ∧ r.usableValue = some v ∧ r.cursorAdvance = some enc.length)

/-! ### The port forms -/

/-- 10_state.md R25: the 80-bit window and its length carry everything a decoder examines, so both forms of `In` give
the same result; byte `j` stands at bits `8j+7:8j`. What stands on the port above the window is free, which is the
model's choice (log entry 9). -/
def Obligations.InputPortCarriesWindow : Prop :=
  ∀ (fill : BitVec 80) (l : List Byte),
    (InPort.ofBytes fill l).bytes = l.take 10 ∧ (InPort.ofBytes fill l).inLen.toNat = min l.length 10 ∧
    (∀ (j : Nat) (h : j < l.length), j < 10 → (InPort.ofBytes fill l).inWin.extractLsb' (8 * j) 8 = l[j]) ∧
    ∀ (i : Instr) (s : State), i = .decu ∨ i = .decs →
      SameResult (resultOf (exec i { s with port := { s.port with bytesIn := l } }))
        (resultOf (exec i { s with port := { s.port with bytesIn := (InPort.ofBytes fill l).bytes } }))

/-- 10_state.md R26: the 80-bit port and its length carry every encoding an encoder gives, whatever stands on the bits
above it. -/
def Obligations.OutputPortCarriesEncoding : Prop :=
  ∀ (i : Instr) (s : State) (fill : BitVec 80), i = .encu ∨ i = .encs →
    ∃ (t : State) (enc out : List Byte), exec i s = .next t ∧ t.result = some (.encoded enc out) ∧
      (EncPort.ofBytes fill enc).encLen.toNat = enc.length ∧ (EncPort.ofBytes fill enc).bytes = enc ∧
      ∀ (j : Nat) (h : j < enc.length), (EncPort.ofBytes fill enc).encBytes.extractLsb' (8 * j) 8 = enc[j]

/-! ### The whole machine -/

/-- 70_reset_and_hazards.md R151, R154 and 20_memory.md R48: an operation gives the result it gives as the first one
after reset, whatever ran before it and whatever comes after. The list of presented events is the model's form (log
entry 2). -/
def Obligations.OperationsDoNotSeeHistory : Prop :=
  ∀ (s : State) (r : InputRecord) (rest : List HostEvent) (i : Instr),
    s.pending = .operation r :: rest → decode r.cmd = .ok i →
    SameResult (resultOf (step s))
      (resultOf (step { State.reset with build := s.build, pending := [.operation r] }))

/-- 20_memory.md R48 and 60_exceptions.md R140: two operations presented together, not both appends to one buffer,
each give the result they give alone. The event, its two steps and the list are the model's form (log entries 2, 4). -/
def Obligations.ConcurrentOperationsAreIndependent : Prop :=
  ∀ (s : State) (a b : InputRecord) (shared : Bool) (rest : List HostEvent) (i j : Instr),
    s.pending = .concurrent a b shared :: rest → decode a.cmd = .ok i → decode b.cmd = .ok j →
    (shared = false ∨ i = .decu ∨ i = .decs ∨ j = .decu ∨ j = .decs) →
    ∃ t u, step s = .next t ∧ step t = .next u ∧ u.pending = rest ∧
      SameResult t.result (resultOf (exec i { State.reset with build := s.build, port := a })) ∧
      SameResult u.result (resultOf (exec j { State.reset with build := s.build, port := b }))

/-- 20_memory.md R49: serialised appends A then B give the buffer `Prefix_A ++ Enc_A ++ Enc_B`; two appends to one
buffer that the host does not serialise are refused. -/
def Obligations.SharedBufferAppends : Prop :=
  (∀ (s : State) (a b : InputRecord) (rest : List HostEvent) (i j : Instr),
    s.pending = .operation a :: .operation b :: rest → decode a.cmd = .ok i → decode b.cmd = .ok j →
    (i = .encu ∨ i = .encs) → (j = .encu ∨ j = .encs) →
    ∃ (t u : State) (encA encB outB : List Byte), step s = .next t ∧ step t = .next u ∧
      t.result = some (.encoded encA (a.prefixIn ++ encA)) ∧ u.result = some (.encoded encB outB) ∧
      (b.prefixIn = a.prefixIn ++ encA → outB = a.prefixIn ++ encA ++ encB)) ∧
  (∀ (s : State) (a b : InputRecord) (rest : List HostEvent) (i j : Instr),
    s.pending = .concurrent a b true :: rest → decode a.cmd = .ok i → decode b.cmd = .ok j →
    (i = .encu ∨ i = .encs) → (j = .encu ∨ j = .encs) → step s = .refused .unserialisedAppends)

/-- 70_reset_and_hazards.md R159: an encoder runs `len(Enc)` iterations, a successful decode `count`, a failing one
`min(L, 10)`. -/
def Obligations.IterationCounts : Prop :=
  (∀ (i : Instr) (s : State), i = .encu ∨ i = .encs → ∃ (t : State) (enc out : List Byte),
    exec i s = .next t ∧ t.result = some (.encoded enc out) ∧ t.encWork.k = enc.length ∧ t.encWork.enc = enc ∧
    1 ≤ t.encWork.k ∧ t.encWork.k ≤ 10) ∧
  (∀ (i : Instr) (s : State), i = .decu ∨ i = .decs → ∃ (t : State) (v : Value) (c : Byte) (f : Option (BitVec 2)),
    exec i s = .next t ∧ t.result = some (.decoded v c f) ∧
    (c ≠ 0#8 → t.decWork.phase = .done ∧ t.decWork.i = c.toNat) ∧
    (c = 0#8 → t.decWork.phase = .failed ∧ t.decWork.i = min s.port.bytesIn.length 10))

/-- The invariant holds at reset. No result record exists then (70_reset_and_hazards.md R150), so what this says is about
the working state, whose values at reset are the model's choice (log entry 1): R153 calls them unspecified. -/
def Obligations.ResetMeetsInvariant : Prop := State.reset.Inv

/-- Every step keeps the invariant: from 10_state.md R26, R28, R29 and 60_exceptions.md R133, R134 (what a result
record and the working state can be; cause code 3 is never produced). What the working state holds between operations
is the model's choice (log entries 1, 10). -/
def Obligations.StepKeepsInvariant : Prop :=
  ∀ s t : State, s.Inv → step s = .next t → t.Inv

/-- From 10_state.md R24: no step changes the build. The other clauses are about the model's own fields: a step leaves
one operation or reset fewer in the host's list (log entries 2, 4), and counts at most one draw of the free value (log
entry 3). -/
def Obligations.StepKeepsBuild : Prop :=
  ∀ s t : State, step s = .next t →
    t.build = s.build ∧ stepsLeft t.pending = stepsLeft s.pending - 1 ∧ s.draws ≤ t.draws ∧ t.draws ≤ s.draws + 1

/-- From 10_state.md R27: while the host keeps its duties every step has a next state, and the host still keeps them. The
list of presented events, and a next state for an interrupted operation or for nothing presented, are the model's choice
(log entries 2, 4). -/
def Obligations.DutifulHostNeverStops : Prop :=
  ∀ s : State, Safe s → ∃ t, step s = .next t ∧ Safe t

/-- From 70_reset_and_hazards.md R159 and R160, which say that every operation ends. A machine whose host keeps its
duties has taken everything presented after as many steps as there are operations and resets in it. The list, its being
empty at the end, and the number of steps are the model's choice: one event a step, two steps for two operations
presented together (log entries 2, 4). -/
def Obligations.EverythingPresentedIsTaken : Prop :=
  ∀ s : State, Safe s → ∃ t, Host.Core.run Sys2Proof.core (stepsLeft s.pending) s = .next t ∧ t.pending = []
end

