-- ==== Sys2Proof/Laws/State.lean ====
section
/-! SUPPORT. Every field after every update of the state. -/

namespace Sys2Proof.Machine

@[simp] theorem State.setPort_build (s : State) (r : InputRecord) : (s.setPort r).build = s.build := rfl
@[simp] theorem State.setPort_port (s : State) (r : InputRecord) : (s.setPort r).port = r := rfl
@[simp] theorem State.setPort_pending (s : State) (r : InputRecord) : (s.setPort r).pending = s.pending := rfl
@[simp] theorem State.setPort_encWork (s : State) (r : InputRecord) : (s.setPort r).encWork = s.encWork := rfl
@[simp] theorem State.setPort_decWork (s : State) (r : InputRecord) : (s.setPort r).decWork = s.decWork := rfl
@[simp] theorem State.setPort_result (s : State) (r : InputRecord) : (s.setPort r).result = s.result := rfl
@[simp] theorem State.setPort_draws (s : State) (r : InputRecord) : (s.setPort r).draws = s.draws := rfl

@[simp] theorem State.setPending_build (s : State) (p : List HostEvent) : (s.setPending p).build = s.build := rfl
@[simp] theorem State.setPending_port (s : State) (p : List HostEvent) : (s.setPending p).port = s.port := rfl
@[simp] theorem State.setPending_pending (s : State) (p : List HostEvent) : (s.setPending p).pending = p := rfl
@[simp] theorem State.setPending_encWork (s : State) (p : List HostEvent) : (s.setPending p).encWork = s.encWork := rfl
@[simp] theorem State.setPending_decWork (s : State) (p : List HostEvent) : (s.setPending p).decWork = s.decWork := rfl
@[simp] theorem State.setPending_result (s : State) (p : List HostEvent) : (s.setPending p).result = s.result := rfl
@[simp] theorem State.setPending_draws (s : State) (p : List HostEvent) : (s.setPending p).draws = s.draws := rfl

@[simp] theorem State.setEncWork_build (s : State) (w : EncWork) : (s.setEncWork w).build = s.build := rfl
@[simp] theorem State.setEncWork_port (s : State) (w : EncWork) : (s.setEncWork w).port = s.port := rfl
@[simp] theorem State.setEncWork_pending (s : State) (w : EncWork) : (s.setEncWork w).pending = s.pending := rfl
@[simp] theorem State.setEncWork_encWork (s : State) (w : EncWork) : (s.setEncWork w).encWork = w := rfl
@[simp] theorem State.setEncWork_decWork (s : State) (w : EncWork) : (s.setEncWork w).decWork = s.decWork := rfl
@[simp] theorem State.setEncWork_result (s : State) (w : EncWork) : (s.setEncWork w).result = s.result := rfl
@[simp] theorem State.setEncWork_draws (s : State) (w : EncWork) : (s.setEncWork w).draws = s.draws := rfl

@[simp] theorem State.setDecWork_build (s : State) (w : DecWork) : (s.setDecWork w).build = s.build := rfl
@[simp] theorem State.setDecWork_port (s : State) (w : DecWork) : (s.setDecWork w).port = s.port := rfl
@[simp] theorem State.setDecWork_pending (s : State) (w : DecWork) : (s.setDecWork w).pending = s.pending := rfl
@[simp] theorem State.setDecWork_encWork (s : State) (w : DecWork) : (s.setDecWork w).encWork = s.encWork := rfl
@[simp] theorem State.setDecWork_decWork (s : State) (w : DecWork) : (s.setDecWork w).decWork = w := rfl
@[simp] theorem State.setDecWork_result (s : State) (w : DecWork) : (s.setDecWork w).result = s.result := rfl
@[simp] theorem State.setDecWork_draws (s : State) (w : DecWork) : (s.setDecWork w).draws = s.draws := rfl

@[simp] theorem State.setResult_build (s : State) (r : Option ResultRecord) : (s.setResult r).build = s.build := rfl
@[simp] theorem State.setResult_port (s : State) (r : Option ResultRecord) : (s.setResult r).port = s.port := rfl
@[simp] theorem State.setResult_pending (s : State) (r : Option ResultRecord) : (s.setResult r).pending = s.pending := rfl
@[simp] theorem State.setResult_encWork (s : State) (r : Option ResultRecord) : (s.setResult r).encWork = s.encWork := rfl
@[simp] theorem State.setResult_decWork (s : State) (r : Option ResultRecord) : (s.setResult r).decWork = s.decWork := rfl
@[simp] theorem State.setResult_result (s : State) (r : Option ResultRecord) : (s.setResult r).result = r := rfl
@[simp] theorem State.setResult_draws (s : State) (r : Option ResultRecord) : (s.setResult r).draws = s.draws := rfl

@[simp] theorem State.nextDraw_build (s : State) : s.nextDraw.build = s.build := rfl
@[simp] theorem State.nextDraw_port (s : State) : s.nextDraw.port = s.port := rfl
@[simp] theorem State.nextDraw_pending (s : State) : s.nextDraw.pending = s.pending := rfl
@[simp] theorem State.nextDraw_encWork (s : State) : s.nextDraw.encWork = s.encWork := rfl
@[simp] theorem State.nextDraw_decWork (s : State) : s.nextDraw.decWork = s.decWork := rfl
@[simp] theorem State.nextDraw_result (s : State) : s.nextDraw.result = s.result := rfl
@[simp] theorem State.nextDraw_draws (s : State) : s.nextDraw.draws = s.draws + 1 := rfl

@[simp] theorem resetBlock_build (s : State) : (resetBlock s).build = s.build := rfl
@[simp] theorem resetBlock_port (s : State) : (resetBlock s).port = s.port := rfl
@[simp] theorem resetBlock_pending (s : State) : (resetBlock s).pending = s.pending := rfl
@[simp] theorem resetBlock_encWork (s : State) : (resetBlock s).encWork = EncWork.reset := rfl
@[simp] theorem resetBlock_decWork (s : State) : (resetBlock s).decWork = DecWork.reset := rfl
@[simp] theorem resetBlock_result (s : State) : (resetBlock s).result = none := rfl
@[simp] theorem resetBlock_draws (s : State) : (resetBlock s).draws = s.draws := rfl

end Sys2Proof.Machine
end

