-- ==== Sys2Proof/Laws/Ops.lean ====
section
/-! SUPPORT. What each shared operation can do, said once. -/

namespace Sys2Proof.Machine

/-! ### The parameters -/

@[simp] theorem maxGroups_eq : Config.maxGroups = 10 := rfl
@[simp] theorem groupBits_eq : Config.groupBits = 7 := rfl
@[simp] theorem valueBits_eq : Config.valueBits = 64 := rfl

/-! ### The command word -/

theorem decode_eq_ok_iff (cmd : Byte) (i : Instr) :
    decode cmd = .ok i ↔ LegalCommand cmd ∧ opInstr (cmd.extractLsb' 0 2) = i := by
  by_cases h : cmd.extractLsb' 2 6 = 0#6 <;>
    simp [decode, CmdWord.ofByte, CmdWord.wellFormed, LegalCommand, h]

theorem exists_decode_of_legal {cmd : Byte} (h : LegalCommand cmd) : ∃ i, decode cmd = .ok i :=
  ⟨_, (decode_eq_ok_iff cmd _).2 ⟨h, rfl⟩⟩

theorem decode_eq_error_of_illegal {cmd : Byte} (h : ¬ LegalCommand cmd) :
    decode cmd = .error (.reservedBitsSet (cmd.extractLsb' 2 6)) := by
  simp_all [decode, CmdWord.ofByte, CmdWord.wellFormed, LegalCommand]

/-! ### Taking the next event -/

/-- Taking a record runs the operation its command word selects. -/
theorem fetchRecord_ok {r : InputRecord} {i : Instr} (h : decode r.cmd = .ok i) (s : State) :
    fetchRecord r s = .run i (s.setPort r) := by
  simp [fetchRecord, h]

theorem fetchRecord_illegal {r : InputRecord} (h : ¬ LegalCommand r.cmd) (s : State) :
    fetchRecord r s = .refuse (.illegalCommand r.cmd) := by
  simp [fetchRecord, decode_eq_error_of_illegal h]

theorem abandonRecord_ok {r : InputRecord} (h : LegalCommand r.cmd) (s : State) :
    abandonRecord r s = .over (resetBlock (s.setPort r)) := by
  obtain ⟨i, hi⟩ := exists_decode_of_legal h
  simp [abandonRecord, hi]

theorem fetch_operation {s : State} {r : InputRecord} {rest : List HostEvent}
    (h : s.pending = .operation r :: rest) : fetch s = fetchRecord r (s.setPending rest) := by
  simp [fetch, h]

theorem fetch_concurrent {s : State} {a b : InputRecord} {shared : Bool} {rest : List HostEvent}
    (h : s.pending = .concurrent a b shared :: rest)
    (hs : ¬ (shared = true ∧ appends a.cmd = true ∧ appends b.cmd = true)) :
    fetch s = fetchRecord a (s.setPending (.operation b :: rest)) := by
  simp [fetch, h]
  intro h₁ h₂ h₃
  exact absurd ⟨h₁, h₂, h₃⟩ hs

/-- A command word placed on a state is the next thing it runs. -/
theorem fetch_placeCommand {cmd : Byte} {i : Instr} (h : decode cmd = .ok i) (s : State) :
    ∃ t, fetch (placeCommand cmd s) = .run i t := by
  unfold placeCommand
  split <;> simp [fetch, fetchRecord, h]

/-! ### The operations -/

/-- Everything an encode operation writes: the working state and the result record. -/
theorem encodeOp_eq (iter : EncWork → EncWork) (s : State) :
    encodeOp iter s = { s with
      encWork := encRun iter 10 (EncWork.start s.port.valueIn)
      result := some (.encoded (encRun iter 10 (EncWork.start s.port.valueIn)).enc
        (s.port.prefixIn ++ (encRun iter 10 (EncWork.start s.port.valueIn)).enc)) } := rfl

theorem encRun_done (iter : EncWork → EncWork) (fuel : Nat) {w : EncWork} (h : w.phase = .done) :
    encRun iter fuel w = w := by
  cases fuel <;> simp [encRun, h]

theorem encRun_succ (iter : EncWork → EncWork) (fuel : Nat) {w : EncWork} (h : w.phase = .emitting) :
    encRun iter (fuel + 1) w = encRun iter fuel (iter w) := by
  simp [encRun, h]

theorem decRun_terminal (extend : Nat → Byte → Value → Value) (l : List Byte) (fuel : Nat) {w : DecWork}
    (h : w.phase ≠ .readingGroup) : decRun extend l fuel w = w := by
  cases fuel with
  | zero => rfl
  | succ n => cases hp : w.phase <;> simp_all [decRun]

/-- The decoder machine keeps the group index within the input and within 10. -/
theorem decStep_index_le (extend : Nat → Byte → Value → Value) (l : List Byte) (w : DecWork)
    (h : w.i ≤ min l.length 10) (h10 : w.i < 10) :
    (decStep extend l w).i ≤ min l.length 10 ∧
      ((decStep extend l w).phase = .readingGroup → (decStep extend l w).i = w.i + 1 ∧ w.i + 1 < 10) := by
  unfold decStep memRead
  split
  · simp_all
  · rename_i b hb
    have hl : w.i < l.length := (List.getElem?_eq_some_iff.1 hb).1
    dsimp only
    split
    · exact ⟨by simp; omega, by simp⟩
    · by_cases h9 : w.i + 1 = Config.maxGroups
      · rw [if_pos h9]; exact ⟨by simp; omega, by simp⟩
      · rw [if_neg h9]; exact ⟨by simp; omega, fun _ => ⟨rfl, by simp at h9; omega⟩⟩

/-- Eleven steps bring the decoder machine to DONE or FAILED, with the index within the window
(41_decode.md R100). -/
theorem decRun_ends (extend : Nat → Byte → Value → Value) (l : List Byte) (fuel : Nat) (w : DecWork)
    (h : w.i ≤ min l.length 10) (hf : w.phase = .readingGroup → w.i < 10 ∧ 10 < fuel + w.i) :
    (decRun extend l fuel w).phase ≠ .readingGroup ∧ (decRun extend l fuel w).i ≤ min l.length 10 := by
  induction fuel generalizing w with
  | zero => exact ⟨fun hp => by have := hf hp; omega, h⟩
  | succ n ih =>
    by_cases hp : w.phase = .readingGroup
    · obtain ⟨h₁, h₂⟩ := decStep_index_le extend l w h (hf hp).1
      have := hf hp
      simp only [decRun, hp]
      exact ih _ h₁ fun hq => by have := h₂ hq; omega
    · rw [decRun_terminal _ _ _ hp]
      exact ⟨hp, h⟩

/-- Everything a decode operation can do: succeed with the machine's accumulator and index, or fail. -/
theorem decodeOp_cases (op : Instr) (extend : Nat → Byte → Value → Value) (s : State) :
    let w := decRun extend s.port.bytesIn 11 DecWork.start
    (w.phase = .done ∧ decodeOp op extend s = succeedDecode w.acc w.i (s.setDecWork w)) ∨
      (w.phase = .failed ∧ decodeOp op extend s = failDecode op (s.setDecWork w)) := by
  intro w
  have hend := (decRun_ends extend s.port.bytesIn 11 DecWork.start (by simp [DecWork.start])
    (by simp [DecWork.start])).1
  cases hp : w.phase with
  | readingGroup => exact absurd hp hend
  | done =>
    refine .inl ⟨rfl, ?_⟩
    show (match w.phase with | .done => _ | .failed => _ | .readingGroup => _) = _
    rw [hp]; rfl
  | failed =>
    refine .inr ⟨rfl, ?_⟩
    show (match w.phase with | .done => _ | .failed => _ | .readingGroup => _) = _
    rw [hp]; rfl

/-- Every operation completes, and what none of them touches. -/
theorem exec_next (i : Instr) (s : State) : ∃ t r, exec i s = .next t ∧ t.result = some r ∧
    t.port = s.port ∧ t.pending = s.pending ∧ t.build = s.build := by
  have dec : ∀ op extend, ∃ t r, Host.Outcome.next (φ := Fault) (ρ := Refusal) (decodeOp op extend s) = .next t ∧
      t.result = some r ∧ t.port = s.port ∧ t.pending = s.pending ∧ t.build = s.build := by
    intro op extend
    rcases decodeOp_cases op extend s with ⟨_, h⟩ | ⟨_, h⟩ <;>
      exact ⟨_, _, congrArg _ h, rfl, rfl, rfl, rfl⟩
  cases i with
  | encu => exact ⟨_, _, rfl, rfl, rfl, rfl, rfl⟩
  | encs => exact ⟨_, _, rfl, rfl, rfl, rfl, rfl⟩
  | decu => exact dec _ _
  | decs => exact dec _ _

/-- The four things a step can do. -/
theorem step_cases (s : State) :
    (fetch s = .idle ∧ step s = .next s) ∨ (∃ i t, fetch s = .run i t ∧ step s = exec i t) ∨
      (∃ t, fetch s = .over t ∧ step s = .next t) ∨ (∃ r, fetch s = .refuse r ∧ step s = .refused r) := by
  unfold step
  cases fetch s <;> simp

end Sys2Proof.Machine
end

