-- ==== Sys2Proof/Laws/Decode.lean ====
section
/-! SUPPORT. What the decoder machine computes on each kind of input (41_decode.md R100). -/

namespace Sys2Proof.Machine

/-- A well-formed encoding is at most nine flagged bytes and a terminator (30_encoding.md R61). -/
theorem wellFormedEncoding_iff (B : List Byte) : wellFormedEncoding B = true ↔
    ∃ init last, B = init ++ [last] ∧ (∀ b ∈ init, contFlag b = true) ∧ contFlag last = false ∧
      init.length ≤ 9 := by
  constructor
  · intro h
    rcases List.eq_nil_or_concat B with rfl | ⟨init, last, rfl⟩
    · simp [wellFormedEncoding] at h
    · simp [wellFormedEncoding] at h
      exact ⟨init, last, by simp, h.1.2, h.2, by omega⟩
  · rintro ⟨init, last, rfl, h₁, h₂, h₃⟩
    simp [wellFormedEncoding, h₂]
    exact ⟨by omega, h₁⟩

theorem groupsFrom_append (j : Nat) (xs ys : List Byte) :
    groupsFrom j (xs ++ ys) = groupsFrom j xs ||| groupsFrom (j + xs.length) ys := by
  induction xs generalizing j with
  | nil => simp [groupsFrom]
  | cons x xs ih => simp [groupsFrom, ih, BitVec.or_assoc, Nat.add_assoc, Nat.add_comm 1]

variable (extend : Nat → Byte → Value → Value)

/-- The machine on a byte of the input. -/
theorem decStep_some {l : List Byte} {w : DecWork} {b : Byte} (h : l[w.i]? = some b) :
    decStep extend l w =
      if contFlag b = false then
        { acc := extend (w.i + 1) b (w.acc ||| groupTerm w.i b), i := w.i + 1, phase := .done }
      else if w.i + 1 = Config.maxGroups then
        { acc := w.acc ||| groupTerm w.i b, i := w.i + 1, phase := .failed }
      else { acc := w.acc ||| groupTerm w.i b, i := w.i + 1, phase := .readingGroup } := by
  simp [decStep, memRead, h]

/-- Flagged bytes before the tenth are merged and passed over. -/
theorem decRun_flagged (l : List Byte) (mid : List Byte) (fuel : Nat) (acc : Value) (i : Nat)
    (hl : ∀ j, (hj : j < mid.length) → l[i + j]? = some mid[j]) (hf : ∀ b ∈ mid, contFlag b = true)
    (h9 : i + mid.length ≤ 9) :
    decRun extend l (mid.length + fuel) { acc := acc, i := i, phase := .readingGroup } =
      decRun extend l fuel
        { acc := acc ||| groupsFrom i mid, i := i + mid.length, phase := .readingGroup } := by
  induction mid generalizing acc i with
  | nil => simp [groupsFrom]
  | cons b mid ih =>
    have hb : l[i]? = some b := by have := hl 0 (by simp); simp only [Nat.add_zero] at this; exact this
    have hfb : contFlag b = true := hf b (by simp)
    have hi : ¬ i + 1 = Config.maxGroups := by simp at h9 ⊢; omega
    rw [show (b :: mid).length + fuel = (mid.length + fuel) + 1 by simp; omega]
    simp only [decRun]
    rw [decStep_some extend (w := { acc := acc, i := i, phase := .readingGroup }) hb]
    rw [if_neg (by simp [hfb]), if_neg hi, ih]
    · simp [groupsFrom, BitVec.or_assoc, Nat.add_assoc, Nat.add_comm 1]
    · intro j hj
      have := hl (j + 1) (by simpa using hj)
      simpa [Nat.add_assoc, Nat.add_comm 1] using this
    · exact fun c hc => hf c (by simp [hc])
    · simp at h9 ⊢; omega

/-- The machine succeeds on an input that begins with a well-formed encoding (R102). -/
theorem decRun_encoding (init T : List Byte) (last : Byte) (hf : ∀ b ∈ init, contFlag b = true)
    (hlast : contFlag last = false) (h9 : init.length ≤ 9) :
    decRun extend (init ++ [last] ++ T) 11 DecWork.start =
      { acc := extend (init.length + 1) last (unsignedValue (init ++ [last])),
        i := init.length + 1, phase := .done } := by
  obtain ⟨k, hk⟩ : ∃ k, 11 = init.length + (k + 1) := ⟨10 - init.length, by omega⟩
  rw [hk, DecWork.start, decRun_flagged extend _ init (k + 1) 0#64 0 _ hf (by omega)]
  · simp only [decRun]
    rw [decStep_some extend (b := last) (by simp), if_pos hlast, decRun_terminal _ _ _ (by simp)]
    simp [unsignedValue, groupsFrom_append, groupsFrom]
  · intro j hj
    simp [List.getElem?_append, hj]

/-- The machine fails on an input without a terminator in its window (R103, R104). -/
theorem decRun_noTerminator (l : List Byte) (h : NoTerminator l) :
    decRun extend l 11 DecWork.start =
      { acc := unsignedValue (l.take 10), i := min l.length 10, phase := .failed } := by
  by_cases hlen : l.length ≤ 9
  · have ht : l.take 10 = l := List.take_of_length_le (by omega)
    obtain ⟨k, hk⟩ : ∃ k, 11 = l.length + (k + 1) := ⟨10 - l.length, by omega⟩
    rw [hk, DecWork.start, decRun_flagged extend l l (k + 1) 0#64 0 _ _ (by omega)]
    · simp only [decRun]
      rw [decRun_terminal _ _ _ (by simp [decStep, memRead])]
      simp [decStep, memRead, unsignedValue, ht]
      omega
    · intro j hj; simp [hj]
    · intro b hb; exact h b (by rwa [ht])
  · obtain ⟨b, hb⟩ : ∃ b, l[9]? = some b := ⟨l[9], by simp⟩
    have htake : l.take 10 = l.take 9 ++ [b] := by rw [List.take_add_one, hb]; rfl
    have hfb : contFlag b = true := h b (by simp [htake])
    have h9 : (l.take 9).length = 9 := by simp; omega
    have hk : (11 : Nat) = (l.take 9).length + 2 := by omega
    rw [hk, DecWork.start, decRun_flagged extend l (l.take 9) 2 0#64 0 _ _ (by omega)]
    · have hm : 0 + (l.take 9).length + 1 = Config.maxGroups := by simp only [h9]; rfl
      rw [decRun, decStep_some extend (b := b) (by simp only [h9]; exact hb), if_neg (by simp [hfb]), if_pos hm,
        decRun_terminal _ _ _ (by simp)]
      simp [unsignedValue, htake, groupsFrom_append, groupsFrom, h9]
      omega
    · intro j hj
      have : j < 9 := by omega
      simp [this] at hj ⊢
    · intro c hc; exact h c (by simp [htake, hc])

/-- Every input either has no terminator in its window or begins with a well-formed encoding (R61, R104). -/
theorem noTerminator_or_encoding (l : List Byte) :
    NoTerminator l ∨ ∃ init last T, l = init ++ [last] ++ T ∧ (∀ b ∈ init, contFlag b = true) ∧
      contFlag last = false ∧ init.length ≤ 9 := by
  have aux : ∀ (n : Nat) (l : List Byte), (∀ b ∈ l.take n, contFlag b = true) ∨
      ∃ init last T, l = init ++ [last] ++ T ∧ (∀ b ∈ init, contFlag b = true) ∧
        contFlag last = false ∧ init.length + 1 ≤ n := by
    intro n
    induction n with
    | zero => intro l; left; simp
    | succ n ih =>
      intro l
      cases l with
      | nil => left; simp
      | cons b l =>
        cases hb : contFlag b with
        | false => exact .inr ⟨[], b, l, by simp, by simp, hb, by simp⟩
        | true =>
          rcases ih l with h | ⟨init, last, T, rfl, h₁, h₂, h₃⟩
          · left; simpa [hb] using h
          · exact .inr ⟨b :: init, last, T, by simp, by simpa [hb] using h₁, h₂, by simp; omega⟩
  rcases aux 10 l with h | ⟨init, last, T, h₀, h₁, h₂, h₃⟩
  · exact .inl h
  · exact .inr ⟨init, last, T, h₀, h₁, h₂, by omega⟩

end Sys2Proof.Machine
end

