-- ==== Sys2Proof/Laws/Encode.lean ====
section
/-! SUPPORT. What the encoders' loops compute (40_encode.md R81, R86). -/

namespace Sys2Proof.Machine

theorem shiftRight_seven_lt {a n : Nat} (h : a < 2 ^ (7 * (n + 1 + 1))) : a >>> 7 < 2 ^ (7 * (n + 1)) := by
  rw [show 7 * (n + 1 + 1) = 7 + 7 * (n + 1) by omega, Nat.pow_add] at h
  rw [Nat.shiftRight_eq_div_pow]
  exact Nat.div_lt_of_lt_mul h

theorem sshiftRight_seven_sign (v : Value) : (v.sshiftRight 7).getLsbD 63 = v.getLsbD 63 := by
  have := BitVec.msb_sshiftRight (x := v) (n := 7)
  rwa [BitVec.msb_eq_getLsbD_last, BitVec.msb_eq_getLsbD_last] at this

theorem lowGroup_eq (v : Value) : lowGroup v = v.setWidth 7 := by
  ext i hi
  simp [lowGroup]

theorem encuIter_last {w : EncWork} (h : w.rem >>> 7 = 0#64) :
    encuIter w = { rem := 0#64, k := w.k + 1, enc := w.enc ++ [(w.rem.setWidth 7).setWidth 8], phase := .done } := by
  simp [encuIter, emit, groupByte, lowGroup_eq, h]

theorem encuIter_more {w : EncWork} (h : w.rem >>> 7 ≠ 0#64) :
    encuIter w = { rem := w.rem >>> 7, k := w.k + 1, enc := w.enc ++ [0x80#8 ||| (w.rem.setWidth 7).setWidth 8],
                   phase := .emitting } := by
  simp [encuIter, emit, groupByte, lowGroup_eq, h]

/-- ENCU's loop emits its encoding within `n + 1` iterations when the rest has at most `n + 1` groups, and leaves a
rest of 0. -/
theorem encRun_encu (n : Nat) (v : Value) (k : Nat) (e : List Byte) (h : v.toNat < 2 ^ (7 * (n + 1))) :
    ∃ bs, EncuEmits v bs ∧ bs.length ≤ n + 1 ∧
      encRun encuIter (n + 1) { rem := v, k := k, enc := e, phase := .emitting } =
        { rem := 0#64, k := k + bs.length, enc := e ++ bs, phase := .done } := by
  induction n generalizing v k e with
  | zero =>
    have hv : v >>> 7 = 0#64 := by
      apply BitVec.eq_of_toNat_eq
      simp [Nat.shiftRight_eq_div_pow]; omega
    refine ⟨_, .final v hv, by simp, ?_⟩
    rw [encRun_succ _ _ rfl, encuIter_last (w := { rem := v, k := k, enc := e, phase := .emitting }) hv]
    simp [encRun]
  | succ n ih =>
    by_cases hv : v >>> 7 = 0#64
    · refine ⟨_, .final v hv, by simp, ?_⟩
      rw [encRun_succ _ _ rfl, encuIter_last (w := { rem := v, k := k, enc := e, phase := .emitting }) hv, encRun_done _ _ rfl]
      simp
    · have hlt : (v >>> 7).toNat < 2 ^ (7 * (n + 1)) := by
        rw [BitVec.toNat_ushiftRight]
        exact shiftRight_seven_lt h
      obtain ⟨bs, h₁, h₂, h₃⟩ := ih (v >>> 7) (k + 1) (e ++ [0x80#8 ||| (v.setWidth 7).setWidth 8]) hlt
      refine ⟨_, .more v bs hv h₁, by simpa using h₂, ?_⟩
      rw [encRun_succ _ _ rfl, encuIter_more (w := { rem := v, k := k, enc := e, phase := .emitting }) hv, h₃]
      simp; omega

/-- ENCU, from its start to its end. -/
theorem encRun_encu_start (v : Value) : ∃ bs, EncuEmits v bs ∧ bs.length ≤ 10 ∧
    encRun encuIter 10 (EncWork.start v) = { rem := 0#64, k := bs.length, enc := bs, phase := .done } := by
  obtain ⟨bs, h₁, h₂, h₃⟩ := encRun_encu 9 v 0 [] (by have := v.isLt; omega)
  exact ⟨bs, h₁, h₂, by simpa [EncWork.start] using h₃⟩

theorem encsIter_last {w : EncWork} (h : EncsStops w.rem) :
    encsIter w = { rem := w.rem.sshiftRight 7, k := w.k + 1, enc := w.enc ++ [(w.rem.setWidth 7).setWidth 8],
                   phase := .done } := by
  unfold EncsStops at h
  have hs : (lowGroup w.rem).getLsbD 6 = w.rem.getLsbD 6 := by simp [lowGroup_eq]
  have ho : BitVec.allOnes 64 = 0xFFFFFFFFFFFFFFFF#64 := by decide
  rw [ho] at h
  simp only [encsIter, hs, groupBits_eq, if_pos h]
  simp [emit, groupByte, lowGroup_eq]

theorem encsIter_more {w : EncWork} (h : ¬ EncsStops w.rem) :
    encsIter w = { rem := w.rem.sshiftRight 7, k := w.k + 1,
                   enc := w.enc ++ [0x80#8 ||| (w.rem.setWidth 7).setWidth 8], phase := .emitting } := by
  unfold EncsStops at h
  have hs : (lowGroup w.rem).getLsbD 6 = w.rem.getLsbD 6 := by simp [lowGroup_eq]
  have ho : BitVec.allOnes 64 = 0xFFFFFFFFFFFFFFFF#64 := by decide
  rw [ho] at h
  simp only [encsIter, hs, groupBits_eq, if_neg h]
  simp [emit, groupByte, lowGroup_eq]

/-- A value of one signed group ends ENCS's loop. -/
theorem encsStops_of_small {v : Value} (h₁ : -64 ≤ v.toInt) (h₂ : v.toInt < 64) : EncsStops v := by
  have hlt := v.isLt
  have hn := BitVec.toInt_eq_toNat_cond v
  have hbit : v.getLsbD 6 = decide (v.toNat / 64 % 2 = 1) := by
    simp [BitVec.getLsbD, Nat.testBit_eq_decide_div_mod_eq]
  by_cases hneg : v.toInt < 0
  · right
    refine ⟨BitVec.eq_of_toInt_eq ?_, ?_⟩
    · rw [BitVec.toInt_sshiftRight, BitVec.toInt_allOnes, Int.shiftRight_eq_div_pow]
      simp; omega
    · rw [hbit]; simp; split at hn <;> omega
  · left
    refine ⟨BitVec.eq_of_toInt_eq ?_, ?_⟩
    · rw [BitVec.toInt_sshiftRight, Int.shiftRight_eq_div_pow]
      simp; omega
    · rw [hbit]; simp; split at hn <;> omega

/-- Where ENCS's loop stops, the rest is all copies of the sign. -/
theorem EncsStops.rest {v : Value} (h : EncsStops v) :
    v.sshiftRight 7 = if v.getLsbD 63 = true then BitVec.allOnes 64 else 0#64 := by
  have hmsb := sshiftRight_seven_sign v
  rcases h with ⟨h, _⟩ | ⟨h, _⟩ <;> rw [h] at hmsb ⊢ <;> simp at hmsb <;> simp [← hmsb]

/-- ENCS's loop emits its encoding within `n + 1` iterations when the rest has at most `n + 1` signed groups, and
leaves a rest of all copies of the sign. -/
theorem encRun_encs (n : Nat) (v : Value) (k : Nat) (e : List Byte)
    (h₁ : -(2 ^ (7 * n) * 64 : Int) ≤ v.toInt) (h₂ : v.toInt < 2 ^ (7 * n) * 64) :
    ∃ bs, EncsEmits v bs ∧ bs.length ≤ n + 1 ∧
      encRun encsIter (n + 1) { rem := v, k := k, enc := e, phase := .emitting } =
        { rem := if v.getLsbD 63 = true then BitVec.allOnes 64 else 0#64, k := k + bs.length, enc := e ++ bs,
          phase := .done } := by
  induction n generalizing v k e with
  | zero =>
    have hs : EncsStops v := encsStops_of_small (by simpa using h₁) (by simpa using h₂)
    refine ⟨_, .final v hs, by simp, ?_⟩
    rw [encRun_succ _ _ rfl, encsIter_last (w := { rem := v, k := k, enc := e, phase := .emitting }) hs]
    simp [encRun, hs.rest]
  | succ n ih =>
    by_cases hs : EncsStops v
    · refine ⟨_, .final v hs, by simp, ?_⟩
      rw [encRun_succ _ _ rfl, encsIter_last (w := { rem := v, k := k, enc := e, phase := .emitting }) hs, encRun_done _ _ rfl]
      simp [hs.rest]
    · have hshift : (v.sshiftRight 7).toInt = v.toInt / 128 := by
        rw [BitVec.toInt_sshiftRight, Int.shiftRight_eq_div_pow]; norm_num
      rw [show 7 * (n + 1) = 7 * n + 7 by omega, pow_add] at h₁ h₂
      have hpos : (0 : Int) < 2 ^ (7 * n) := by positivity
      obtain ⟨bs, g₁, g₂, g₃⟩ := ih (v.sshiftRight 7) (k + 1)
        (e ++ [0x80#8 ||| (v.setWidth 7).setWidth 8]) (by rw [hshift]; omega) (by rw [hshift]; omega)
      refine ⟨_, .more v bs hs g₁, by simpa using g₂, ?_⟩
      rw [encRun_succ _ _ rfl, encsIter_more (w := { rem := v, k := k, enc := e, phase := .emitting }) hs, g₃, sshiftRight_seven_sign]
      simp; omega

/-- ENCS, from its start to its end. -/
theorem encRun_encs_start (v : Value) : ∃ bs, EncsEmits v bs ∧ bs.length ≤ 10 ∧
    encRun encsIter 10 (EncWork.start v) =
      { rem := if v.getLsbD 63 = true then BitVec.allOnes 64 else 0#64, k := bs.length, enc := bs,
        phase := .done } := by
  have h₁ := BitVec.le_toInt v
  have h₂ := BitVec.toInt_lt (x := v)
  obtain ⟨bs, g₁, g₂, g₃⟩ := encRun_encs 9 v 0 [] (by norm_num at h₁ ⊢; omega) (by norm_num at h₂ ⊢; omega)
  exact ⟨bs, g₁, g₂, by simpa [EncWork.start] using g₃⟩

end Sys2Proof.Machine
end

