-- ==== Sys2Proof/Laws/PerInstr.lean ====
section
/-! SUPPORT. What holds of every instruction as syntax, one lemma per constructor. -/

namespace Sys2Proof.Laws.CommandWord

/-- The instruction is well formed, and its command word has a zero reserved field and its own select field
(30_encoding.md R70, R71). -/
def Statement (i : Instr) : Prop :=
  i.wellFormed = true ∧ CmdWord.ofByte (encode i) = i.cmdWord ∧ i.cmdWord.wellFormed = true ∧ opInstr i.op = i

theorem encu : Statement .encu := by unfold Statement; decide
theorem encs : Statement .encs := by unfold Statement; decide
theorem decu : Statement .decu := by unfold Statement; decide
theorem decs : Statement .decs := by unfold Statement; decide

end Sys2Proof.Laws.CommandWord
end

