-- ==== Sys2Proof/Tests/Slice0.lean ====
section
/-! SUPPORT. Tests, with expected results from the spec's own tables, and a witness for the hypotheses of each
statement that has some. -/

namespace Sys2Proof.Tests

open Sys2Proof.Machine

/-- A state with this record at the port. -/
def at_ (valueIn : Value) (prefixIn bytesIn : List Byte) : State :=
  { State.reset with port := { cmd := 0#8, valueIn := valueIn, prefixIn := prefixIn, bytesIn := bytesIn } }

/-- A state in which the host has presented these events. -/
def presented (events : List HostEvent) : State := { State.reset with pending := events }

/-- The same machine built with `RICH_ERRORS`. -/
def rich (s : State) : State := { s with build := { richErrors := true } }

/-- A record with this command word. -/
def recordOf (cmd : Byte) : InputRecord := { InputRecord.idle with cmd := cmd }

/-- The count and the cause output of a decode. -/
def countOf (r : Option ResultRecord) : Option (Byte × Option (BitVec 2)) :=
  match r with
  | some (.decoded _ c f) => some (c, f)
  | some (.encoded _ _) => none
  | none => none

/-! ### Well-formedness: each check refuses an ill-formed term -/

theorem test_reserved_bit_refused : CmdWord.wellFormed { rsv := 0b000001#6, op := 0b00#2 } = false := by decide
theorem test_zero_reserved_accepted : CmdWord.wellFormed { rsv := 0b000000#6, op := 0b11#2 } = true := by decide
theorem test_empty_encoding_refused : wellFormedEncoding [] = false := by decide
theorem test_eleven_byte_encoding_refused :
    wellFormedEncoding (List.replicate 10 0x80#8 ++ [0x00#8]) = false := by decide
theorem test_unterminated_encoding_refused : wellFormedEncoding [0x80#8] = false := by decide
theorem test_early_terminator_refused : wellFormedEncoding [0x00#8, 0x00#8] = false := by decide
theorem test_ten_byte_encoding_accepted :
    wellFormedEncoding (List.replicate 9 0x80#8 ++ [0x00#8]) = true := by decide
theorem test_cursor_beyond_buffer_refused : (Asm.decu [0x00#8] 2).wellFormed = false := by decide
theorem test_cursor_at_end_accepted : (Asm.decs [0x00#8] 1).wellFormed = true := by decide

/-! ### Command words, bit by bit from 30_encoding.md R71, and the first illegal one (vectors A6, A7) -/

theorem test_decode_encu : decode 0b00000000#8 = .ok .encu := by decide
theorem test_decode_encs : decode 0b00000001#8 = .ok .encs := by decide
theorem test_decode_decu : decode 0b00000010#8 = .ok .decu := by decide
theorem test_decode_decs : decode 0b00000011#8 = .ok .decs := by decide
theorem test_decode_04_illegal : decode 0b00000100#8 = .error (.reservedBitsSet 1#6) := by decide
theorem test_decode_83_illegal : decode 0b10000011#8 = .error (.reservedBitsSet 0b100000#6) := by decide
theorem test_table_word : decodeTableWord 8 2 = some .decu := by decide
theorem test_table_word_illegal : decodeTableWord 8 7 = none := by decide

/-! ### One operation each (95_test_vectors.md) -/

/-- A2: the bytes before are kept. -/
theorem test_encu_append : resultOf (exec .encu (at_ 300#64 [0xab#8, 0xcd#8] [])) =
    some (.encoded [0xac#8, 0x02#8] [0xab#8, 0xcd#8, 0xac#8, 0x02#8]) := by decide

/-- E-U17: the smallest 10-byte value. -/
theorem test_encu_two_pow_63 : resultOf (exec .encu (at_ 0x8000000000000000#64 [] [])) =
    some (.encoded (List.replicate 9 0x80#8 ++ [0x01#8]) (List.replicate 9 0x80#8 ++ [0x01#8])) := by decide

/-- E-S9: bit 6 clear with a rest of -1, so a sign group follows. -/
theorem test_encs_minus_65 : resultOf (exec .encs (at_ 0xffffffffffffffbf#64 [] [])) =
    some (.encoded [0xbf#8, 0x7f#8] [0xbf#8, 0x7f#8]) := by decide

/-- E-S26: int64 max needs a tenth zero group. -/
theorem test_encs_int64_max : resultOf (exec .encs (at_ 0x7fffffffffffffff#64 [] [])) =
    some (.encoded (List.replicate 9 0xff#8 ++ [0x00#8]) (List.replicate 9 0xff#8 ++ [0x00#8])) := by decide

/-- D-U9: a trailing byte is ignored. -/
theorem test_decu_trailing : resultOf (exec .decu (at_ 0#64 [] [0xe5#8, 0x8e#8, 0x26#8, 0xff#8])) =
    some (.decoded 624485#64 3#8 none) := by decide

/-- D-U16: a 10th byte with bit 0 clear gives 0 and does not fail. -/
theorem test_decu_tenth_byte_cut :
    resultOf (exec .decu (rich (at_ 0#64 [] (List.replicate 9 0x80#8 ++ [0x7e#8])))) =
      some (.decoded 0#64 10#8 (some 0#2)) := by decide

/-- D-S16: at the 9th byte the extension sets bit 63 only. -/
theorem test_decs_ninth_byte : resultOf (exec .decs (at_ 0#64 [] (List.replicate 8 0x80#8 ++ [0x40#8]))) =
    some (.decoded 0xc000000000000000#64 9#8 none) := by decide

/-- D-S23: bit 6 of a 10th byte is ignored. -/
theorem test_decs_tenth_byte : resultOf (exec .decs (at_ 0#64 [] (List.replicate 9 0xff#8 ++ [0x40#8]))) =
    some (.decoded 0x7fffffffffffffff#64 10#8 none) := by decide

/-- D-U23: 10 flagged bytes are over-long. -/
theorem test_decu_overlong : countOf (resultOf (exec .decu (rich (at_ 0#64 [] (List.replicate 10 0x80#8))))) =
    some (0#8, some 2#2) := by decide

/-- D-S25: a lone flagged byte is truncated input. -/
theorem test_decs_truncated : countOf (resultOf (exec .decs (rich (at_ 0#64 [] [0xff#8])))) =
    some (0#8, some 1#2) := by decide

/-! ### Steps -/

theorem test_fetch_word_runs : resultOf (step (State.reset.withFetchWord 8 1)) =
    some (.encoded [0x00#8] [0x00#8]) := by decide

/-- Program P5, step 2: the suffix of `ab cd 7f` at index 2. -/
theorem test_step_asm : resultOf (step (presented
    [.operation (Asm.decs [0xab#8, 0xcd#8, 0x7f#8] 2).record])) =
      some (.decoded 0xffffffffffffffff#64 1#8 none) := by decide

/-- R25: byte 0 of the window is at bits 7:0 and byte 1 at bits 15:8. -/
theorem test_port_packing : (InPort.ofBytes 0#80 [0xac#8, 0x02#8]) = { inWin := 0x02ac#80, inLen := 2#4 } := by decide

/-! ### Witnesses: the hypotheses of each statement can be met -/

theorem witness_legal_commands : decode 0x03#8 = .ok .decs := by decide

theorem witness_illegal_command : (presented [.operation (recordOf 0x04#8)]).pending =
    .operation (recordOf 0x04#8) :: [] ∧ (recordOf 0x04#8).cmd.extractLsb' 2 6 ≠ 0#6 := by decide

theorem witness_step_runs : (presented [.operation (recordOf 2#8)]).pending = .operation (recordOf 2#8) :: [] ∧
    decode (recordOf 2#8).cmd = .ok .decu := by decide

theorem witness_step_runs_concurrent :
    (presented [.concurrent (recordOf 0#8) (recordOf 2#8) true]).pending =
      .concurrent (recordOf 0#8) (recordOf 2#8) true :: [] ∧ decode (recordOf 0#8).cmd = .ok .encu ∧
    ¬ (true = true ∧ appends (recordOf 0#8).cmd = true ∧ appends (recordOf 2#8).cmd = true) := by decide

theorem witness_idle : State.reset.pending = [] := by decide

theorem witness_reset_event : (presented [.reset]).pending = .reset :: [] := by decide

theorem witness_interrupted : (presented [.interrupted (recordOf 1#8)]).pending =
    .interrupted (recordOf 1#8) :: [] ∧ (recordOf 1#8).cmd.extractLsb' 2 6 = 0#6 := by decide

theorem witness_encu_example : (at_ 624485#64 [] []).port.valueIn = 624485#64 := by decide

theorem witness_encs_example :
    (at_ 0xfffffffffff6789b#64 [] []).port.valueIn = BitVec.ofInt 64 (-624485) := by decide

theorem witness_bit_63_clear : (at_ 0x7fffffffffffffff#64 [] []).port.valueIn >>> 63 = 0#64 := by decide

theorem witness_bit_63_set : (at_ 0x8000000000000000#64 [] []).port.valueIn >>> 63 = 1#64 := by decide

theorem witness_ten_byte_encs :
    (encRun encsIter 10 (EncWork.start 0x8000000000000000#64)).enc.length = 10 := by decide

theorem witness_encu_minimal : wellFormedEncoding [0x80#8, 0x01#8] = true ∧
    unsignedValue [0x80#8, 0x01#8] = (at_ 128#64 [] []).port.valueIn ∧
    1 < (encRun encuIter 10 (EncWork.start 128#64)).enc.length := by decide

theorem witness_encs_minimal : wellFormedEncoding [0xff#8, 0x7f#8] = true ∧
    signedValue [0xff#8, 0x7f#8] = (at_ 0xffffffffffffffff#64 [] []).port.valueIn := by decide

theorem witness_unsigned_bits_zero : (at_ 0#64 [] []).port.valueIn.toNat < 2 ^ 0 ∧
    ((0 : Nat) = 0 ∨ 2 ^ (0 - 1) ≤ (at_ 0#64 [] []).port.valueIn.toNat) := by decide

theorem witness_unsigned_bits_eight : (at_ 128#64 [] []).port.valueIn.toNat < 2 ^ 8 ∧
    ((8 : Nat) = 0 ∨ 2 ^ (8 - 1) ≤ (at_ 128#64 [] []).port.valueIn.toNat) := by decide

theorem witness_signed_bits :
    ((64 : Nat) : Int) = (if 0 ≤ (at_ 0xffffffffffffffbf#64 [] []).port.valueIn.toInt
      then (at_ 0xffffffffffffffbf#64 [] []).port.valueIn.toInt
      else -(at_ 0xffffffffffffffbf#64 [] []).port.valueIn.toInt - 1) ∧
    64 < 2 ^ 7 ∧ ((7 : Nat) = 0 ∨ 2 ^ (7 - 1) ≤ 64) := by decide

theorem witness_encoders_append : (Instr.encs = .encu ∨ Instr.encs = .encs) ∧
    (at_ 5#64 [] []).port.valueIn = (at_ 5#64 [0x01#8] [0x02#8]).port.valueIn := by decide

theorem witness_encoders : Instr.encu = .encu ∨ Instr.encu = .encs := by decide

theorem witness_non_negative_bit_6_clear : 0 ≤ (at_ 63#64 [] []).port.valueIn.toInt ∧
    resultOf (exec .encu (at_ 63#64 [] [])) = some (.encoded ([] ++ [0x3f#8]) ([] ++ ([] ++ [0x3f#8]))) ∧
    (0x3f#8).getLsbD 6 = false := by decide

theorem witness_non_negative_bit_6_set : 0 ≤ (at_ 64#64 [] []).port.valueIn.toInt ∧
    resultOf (exec .encu (at_ 64#64 [] [])) = some (.encoded ([] ++ [0x40#8]) ([] ++ ([] ++ [0x40#8]))) ∧
    (0x40#8).getLsbD 6 = true := by decide

theorem witness_frames : exec .encu State.reset = .next (encodeOp encuIter State.reset) := rfl

theorem witness_decoders_frame : (Instr.decs = .decu ∨ Instr.decs = .decs) ∧
    exec .decs (at_ 0#64 [] [0x7f#8]) = .next (decodeOp .decs decsExtend (at_ 0#64 [] [0x7f#8])) ∧
    (decodeOp .decs decsExtend (at_ 0#64 [] [0x7f#8])).result =
      some (.decoded 0xffffffffffffffff#64 1#8 none) ∧
    ResultRecord.usableValue (.decoded 0xffffffffffffffff#64 1#8 none) ≠ none :=
  ⟨by decide, rfl, by decide, by decide⟩

theorem witness_decode_success : wellFormedEncoding [0x80#8, 0x00#8] = true ∧
    (at_ 0#64 [] [0x80#8, 0x00#8, 0xff#8]).port.bytesIn = [0x80#8, 0x00#8] ++ [0xff#8] := by decide

theorem witness_decode_failure_empty : NoTerminator (at_ 0#64 [] []).port.bytesIn := by
  unfold NoTerminator; decide

theorem witness_decode_failure_overlong :
    NoTerminator (at_ 0#64 [] (List.replicate 10 0xff#8 ++ [0x00#8])).port.bytesIn := by
  unfold NoTerminator; decide

theorem witness_rich_build : (Instr.decu = .decu ∨ Instr.decu = .decs) ∧
    (rich State.reset).build.richErrors = true := by decide

theorem witness_window : (at_ 0#64 [] (List.replicate 10 0x80#8 ++ [0x00#8])).build =
      (at_ 1#64 [] (List.replicate 12 0x80#8)).build ∧
    (at_ 0#64 [] (List.replicate 10 0x80#8 ++ [0x00#8])).port.bytesIn.take 10 =
      (at_ 1#64 [] (List.replicate 12 0x80#8)).port.bytesIn.take 10 := by decide

theorem witness_same_encoding : wellFormedEncoding [0x81#8, 0x00#8] = true ∧
    (at_ 0#64 [] [0x81#8, 0x00#8]).port.bytesIn = [0x81#8, 0x00#8] ++ [] ∧
    (at_ 0#64 [] [0x81#8, 0x00#8, 0x80#8]).port.bytesIn = [0x81#8, 0x00#8] ++ [0x80#8] := by decide

theorem witness_tenth_byte : wellFormedEncoding (List.replicate 9 0x80#8 ++ [0x7f#8]) = true ∧
    (List.replicate 9 0x80#8 ++ [0x7f#8]).length = 10 ∧
    (at_ 0#64 [] (List.replicate 9 0x80#8 ++ [0x7f#8])).port.bytesIn =
      (List.replicate 9 0x80#8 ++ [0x7f#8]) ++ [] := by decide

theorem witness_decs_from_decu :
    countOf (resultOf (exec .decu (at_ 0#64 [] [0x40#8]))) = some (1#8, none) ∧ (1#8 : Byte) ≠ 0#8 := by decide

theorem witness_sentinel_success : (Instr.decs = .decu ∨ Instr.decs = .decs) ∧
    countOf (resultOf (exec .decs (at_ 0#64 [] [0x00#8]))) = some (1#8, none) := by decide

theorem witness_padding : (encRun encuIter 10 (EncWork.start 1#64)).enc.length + 8 + 1 ≤ 10 ∧
    (at_ 0#64 [] (padEncoding 0#7 8 [0x01#8] ++ [0x55#8])).port.bytesIn = padEncoding 0#7 8 [0x01#8] ++ [0x55#8] := by
  decide

theorem witness_padding_signed : (encRun encsIter 10 (EncWork.start 0xffffffffffffffff#64)).enc.length + 0 + 1 ≤ 10 ∧
    (at_ 0#64 [] [0xff#8, 0x7f#8]).port.bytesIn = padEncoding 0x7f#7 0 [0x7f#8] ++ [] := by decide

theorem witness_cursor_advances :
    ∃ r, (decodeOp .decu decuExtend (at_ 0#64 [] [0x80#8, 0x01#8])).result = some r ∧ r.cursorAdvance = some 2 :=
  ⟨.decoded 128#64 2#8 none, by decide, by decide⟩

theorem witness_cursor_stays :
    ∃ r, (decodeOp .decu decuExtend (at_ 0#64 [] [])).result = some r ∧ r.cursorAdvance = none :=
  ⟨_, rfl, rfl⟩

theorem witness_round_trip : (at_ 0#64 [] [0xe5#8, 0x8e#8, 0x26#8, 0x00#8]).port.bytesIn =
    (encRun encuIter 10 (EncWork.start 624485#64)).enc ++ [0x00#8] := by decide

theorem witness_round_trip_signed : (at_ 0#64 [] [0x9b#8, 0xf1#8, 0x59#8]).port.bytesIn =
    (encRun encsIter 10 (EncWork.start 0xfffffffffff6789b#64)).enc ++ [] := by decide

theorem witness_concurrent :
    (presented [.concurrent (recordOf 0#8) (recordOf 1#8) false]).pending =
      .concurrent (recordOf 0#8) (recordOf 1#8) false :: [] ∧ decode (recordOf 0#8).cmd = .ok .encu ∧
    decode (recordOf 1#8).cmd = .ok .encs := by decide

theorem witness_serialised_appends :
    (presented [.operation (Asm.encu [0xab#8] 300#64).record,
      .operation (Asm.encs [0xab#8, 0xac#8, 0x02#8] 0#64).record]).pending =
      .operation (Asm.encu [0xab#8] 300#64).record ::
        .operation (Asm.encs [0xab#8, 0xac#8, 0x02#8] 0#64).record :: [] ∧
    decode (Asm.encu [0xab#8] 300#64).record.cmd = .ok .encu ∧
    decode (Asm.encs [0xab#8, 0xac#8, 0x02#8] 0#64).record.cmd = .ok .encs ∧
    (Asm.encs [0xab#8, 0xac#8, 0x02#8] 0#64).record.prefixIn =
      (Asm.encu [0xab#8] 300#64).record.prefixIn ++ (encRun encuIter 10 (EncWork.start 300#64)).enc := by decide

theorem witness_unserialised_appends :
    (presented [.concurrent (recordOf 0#8) (recordOf 1#8) true]).pending =
      .concurrent (recordOf 0#8) (recordOf 1#8) true :: [] ∧ decode (recordOf 0#8).cmd = .ok .encu ∧
    decode (recordOf 1#8).cmd = .ok .encs := by decide

/-- A state that meets the invariant and has a step: 300 was encoded, and a decode is presented. -/
theorem witness_invariant_step : ∃ s t : State, s.result ≠ none ∧ s.Inv ∧ step s = .next t := by
  refine ⟨{ presented [.operation (recordOf 2#8)] with
    encWork := { rem := 0#64, k := 2, enc := [0xac#8, 0x02#8], phase := .done }
    result := some (.encoded [0xac#8, 0x02#8] [0xac#8, 0x02#8]) }, _, by simp, ⟨?_, ?_, ?_⟩, rfl⟩
  · refine ⟨rfl, by decide, fun _ => by decide, ?_⟩
    simp
  · exact ⟨by decide, by decide, by decide⟩
  · rintro r hr
    obtain rfl := Option.some.inj hr
    exact ⟨by decide, [], rfl⟩

theorem witness_step_keeps_build : step (presented [.reset]) = .next (resetBlock (presented [])) := rfl

theorem witness_safe : Safe (presented [.operation (recordOf 3#8), .concurrent (recordOf 0#8) (recordOf 2#8) true,
    .interrupted (recordOf 1#8), .reset]) := by
  simp [Safe, presented, HostEvent.Dutiful, LegalCommand, recordOf]
  decide

end Sys2Proof.Tests
end

section
/-! What one operation does to the state, said once for both encoders and once for both decoders. -/

namespace Sys2Proof.Machine

theorem encoder_or_decoder (i : Instr) : (i = .encu ∨ i = .encs) ∨ (i = .decu ∨ i = .decs) := by
  cases i <;> simp

/-! ### The encodings the encoders emit -/

theorem wellFormedEncoding_length_le {enc : List Byte} (h : wellFormedEncoding enc = true) : enc.length ≤ 10 := by
  obtain ⟨init, last, rfl, -, -, hlen⟩ := (wellFormedEncoding_iff enc).1 h
  simpa using Nat.succ_le_succ hlen

theorem wellFormedEncoding_singleton {b : Byte} (h : contFlag b = false) : wellFormedEncoding [b] = true :=
  (wellFormedEncoding_iff _).2 ⟨[], b, rfl, by simp, h, by simp⟩

/-- A flagged byte before a well-formed encoding of at most 9 bytes makes a well-formed encoding. -/
theorem wellFormedEncoding_cons {b : Byte} {enc : List Byte} (hb : contFlag b = true)
    (h : wellFormedEncoding enc = true) (hlen : (b :: enc).length ≤ 10) : wellFormedEncoding (b :: enc) = true := by
  obtain ⟨init, last, rfl, hinit, hlast, -⟩ := (wellFormedEncoding_iff enc).1 h
  exact (wellFormedEncoding_iff _).2
    ⟨b :: init, last, rfl, by simpa [hb] using hinit, hlast, by simp at hlen ⊢; omega⟩

@[simp] theorem contFlag_setWidth_group (g : Group) : contFlag (g.setWidth 8) = false := by
  simp [contFlag]

@[simp] theorem contFlag_flagged (b : Byte) : contFlag (0x80#8 ||| b) = true := by
  simp [contFlag]

theorem EncuEmits.wellFormed {v : Value} {bs : List Byte} (h : EncuEmits v bs) (hlen : bs.length ≤ 10) :
    wellFormedEncoding bs = true := by
  induction h with
  | final v _ => exact wellFormedEncoding_singleton (contFlag_setWidth_group _)
  | more v bs _ _ ih =>
    exact wellFormedEncoding_cons (contFlag_flagged _) (ih (by simp at hlen; omega)) hlen

theorem EncsEmits.wellFormed {v : Value} {bs : List Byte} (h : EncsEmits v bs) (hlen : bs.length ≤ 10) :
    wellFormedEncoding bs = true := by
  induction h with
  | final v _ => exact wellFormedEncoding_singleton (contFlag_setWidth_group _)
  | more v bs _ _ ih =>
    exact wellFormedEncoding_cons (contFlag_flagged _) (ih (by simp at hlen; omega)) hlen

/-- Everything an encoder does: it ends at DONE with a well-formed encoding, delivers it, and writes nothing else
(40_encode.md R80, R82, R87). -/
theorem exec_encoder {i : Instr} (hi : i = .encu ∨ i = .encs) (s : State) :
    ∃ (rem : Value) (enc : List Byte), wellFormedEncoding enc = true ∧
      exec i s = .next { s with
        encWork := { rem := rem, k := enc.length, enc := enc, phase := .done }
        result := some (.encoded enc (s.port.prefixIn ++ enc)) } := by
  rcases hi with rfl | rfl
  · obtain ⟨enc, hemits, hlen, hrun⟩ := encRun_encu_start s.port.valueIn
    refine ⟨0#64, enc, hemits.wellFormed hlen, ?_⟩
    rw [exec, execEncu, encodeOp_eq, hrun]
  · obtain ⟨enc, hemits, hlen, hrun⟩ := encRun_encs_start s.port.valueIn
    exact ⟨_, enc, hemits.wellFormed hlen, by rw [exec, execEncs, encodeOp_eq, hrun]⟩

/-! ### The decoders -/

/-- Both decoders are the decode operation, each with its own treatment of the terminator. -/
theorem exec_decoder {i : Instr} (hi : i = .decu ∨ i = .decs) :
    ∃ extend, ∀ s, exec i s = .next (decodeOp i extend s) := by
  rcases hi with rfl | rfl
  · exact ⟨decuExtend, fun _ => rfl⟩
  · exact ⟨decsExtend, fun _ => rfl⟩

/-- A decode of an input that begins with a well-formed encoding succeeds (41_decode.md R102). -/
theorem decodeOp_encoding (op : Instr) (extend : Nat → Byte → Value → Value) (s : State) {init T : List Byte}
    {last : Byte} (hin : s.port.bytesIn = init ++ [last] ++ T) (hinit : ∀ b ∈ init, contFlag b = true)
    (hlast : contFlag last = false) (hlen : init.length ≤ 9) :
    decodeOp op extend s = { s with
      decWork := { acc := extend (init.length + 1) last (unsignedValue (init ++ [last])), i := init.length + 1,
                   phase := .done }
      result := some (.decoded (extend (init.length + 1) last (unsignedValue (init ++ [last])))
        (BitVec.ofNat 8 (init.length + 1)) (causeOutput s.build .none)) } := by
  have hrun := decRun_encoding extend init T last hinit hlast hlen
  rw [← hin] at hrun
  simp only [decodeOp, maxGroups_eq, Nat.reduceAdd, hrun]
  rfl

/-- A decode of an input without a terminator in its window fails (41_decode.md R103, R104). -/
theorem decodeOp_noTerminator (op : Instr) (extend : Nat → Byte → Value → Value) (s : State)
    (h : NoTerminator s.port.bytesIn) :
    decodeOp op extend s = { s with
      decWork := { acc := unsignedValue (s.port.bytesIn.take 10), i := min s.port.bytesIn.length 10,
                   phase := .failed }
      result := some (.decoded (Config.failValue s.draws op s.port.bytesIn) 0#8
        (causeOutput s.build (failCauseOf s.port.bytesIn.length)))
      draws := s.draws + 1 } := by
  simp only [decodeOp, maxGroups_eq, Nat.reduceAdd, decRun_noTerminator extend _ h]
  rfl

/-- Everything a decoder can do: succeed with a count from 1 to 10, or fail and count one draw. It writes nothing
else. -/
theorem exec_decoder_cases {i : Instr} (hi : i = .decu ∨ i = .decs) (s : State) :
    (∃ (v : Value) (n : Nat), 1 ≤ n ∧ n ≤ 10 ∧
      exec i s = .next { s with
        decWork := { acc := v, i := n, phase := .done }
        result := some (.decoded v (BitVec.ofNat 8 n) (causeOutput s.build .none)) }) ∨
    (∃ acc : Value,
      exec i s = .next { s with
        decWork := { acc := acc, i := min s.port.bytesIn.length 10, phase := .failed }
        result := some (.decoded (Config.failValue s.draws i s.port.bytesIn) 0#8
          (causeOutput s.build (failCauseOf s.port.bytesIn.length)))
        draws := s.draws + 1 }) := by
  obtain ⟨extend, hexec⟩ := exec_decoder hi
  rcases noTerminator_or_encoding s.port.bytesIn with h | ⟨init, last, T, hin, hinit, hlast, hlen⟩
  · exact .inr ⟨_, by rw [hexec, decodeOp_noTerminator _ _ _ h]⟩
  · exact .inl ⟨_, init.length + 1, by omega, by omega,
      by rw [hexec, decodeOp_encoding _ _ _ hin hinit hlast hlen]⟩

/-- A decode does not look beyond the first 10 bytes of its input (41_decode.md R101). -/
theorem sameResult_of_take_ten_eq {i : Instr} (hi : i = .decu ∨ i = .decs) {s s' : State}
    (hbuild : s.build = s'.build) (hwin : s.port.bytesIn.take 10 = s'.port.bytesIn.take 10) :
    SameResult (resultOf (exec i s)) (resultOf (exec i s')) := by
  obtain ⟨extend, hexec⟩ := exec_decoder hi
  rw [hexec s, hexec s']
  rcases noTerminator_or_encoding s.port.bytesIn with h | ⟨init, last, T, hin, hinit, hlast, hlen⟩
  · have h' : NoTerminator s'.port.bytesIn := by rwa [NoTerminator, ← hwin]
    have hmin : min s.port.bytesIn.length 10 = min s'.port.bytesIn.length 10 := by
      simpa [Nat.min_comm] using congrArg List.length hwin
    rw [decodeOp_noTerminator _ _ s h, decodeOp_noTerminator _ _ s' h']
    simp [resultOf, SameResult, ResultRecord.Agrees, failCauseOf, hbuild, hmin]
  · have htake : s.port.bytesIn.take 10 = init ++ [last] ++ T.take (10 - (init ++ [last]).length) := by
      rw [hin, List.take_append, List.take_of_length_le (by simp; omega)]
    have hin' : s'.port.bytesIn =
        init ++ [last] ++ (T.take (10 - (init ++ [last]).length) ++ s'.port.bytesIn.drop 10) := by
      rw [← List.append_assoc, ← htake, hwin, List.take_append_drop]
    rw [decodeOp_encoding _ _ s hin hinit hlast hlen, decodeOp_encoding _ _ s' hin' hinit hlast hlen]
    simp [resultOf, SameResult, ResultRecord.Agrees, hbuild]

end Sys2Proof.Machine
end

section
/-! The causes a decode can have, and the invariant of each part of the state. -/

namespace Sys2Proof.Machine

theorem causeOutput_isSome (build : Build) (c : Cause) : (causeOutput build c).isSome = build.richErrors := by
  cases h : build.richErrors <;> simp [causeOutput, h]

theorem eq_code_of_causeOutput {build : Build} {c : Cause} {code : BitVec 2} (h : causeOutput build c = some code) :
    code = c.code := by
  unfold causeOutput at h
  split at h
  · exact (Option.some.inj h).symm
  · cases h

theorem Cause.code_ne_three (c : Cause) : c.code ≠ 3#2 := by
  cases c <;> decide

theorem Cause.code_eq_zero_iff (c : Cause) : c.code = 0#2 ↔ c = .none := by
  cases c <;> decide

theorem failCauseOf_ne_none (len : Nat) : failCauseOf len ≠ .none := by
  unfold failCauseOf
  split <;> simp

/-- A decode's record meets its invariant when its cause is NONE exactly on a count that is not 0. -/
theorem ResultRecord.inv_decoded {build : Build} {v : Value} {count : Byte} {c : Cause} (hcount : count.toNat ≤ 10)
    (hc : c = .none ↔ count ≠ 0#8) : (ResultRecord.decoded v count (causeOutput build c)).Inv build := by
  refine ⟨hcount, causeOutput_isSome build c, fun code hcode => ?_⟩
  obtain rfl := eq_code_of_causeOutput hcode
  exact ⟨c.code_ne_three, c.code_eq_zero_iff.trans hc⟩

theorem ResultRecord.inv_decoded_success (build : Build) (v : Value) {n : Nat} (h₁ : 1 ≤ n) (h₂ : n ≤ 10) :
    (ResultRecord.decoded v (BitVec.ofNat 8 n) (causeOutput build .none)).Inv build := by
  have hn : (BitVec.ofNat 8 n).toNat = n := by simp; omega
  refine inv_decoded (by omega) ⟨fun _ hzero => ?_, fun _ => rfl⟩
  rw [hzero] at hn
  simp at hn
  omega

theorem ResultRecord.inv_decoded_failure (build : Build) (v : Value) (len : Nat) :
    (ResultRecord.decoded v 0#8 (causeOutput build (failCauseOf len))).Inv build :=
  inv_decoded (by simp) (by simp [failCauseOf_ne_none])

theorem EncWork.inv_done (rem : Value) {enc : List Byte} (h : wellFormedEncoding enc = true) :
    ({ rem := rem, k := enc.length, enc := enc, phase := .done } : EncWork).Inv :=
  ⟨rfl, wellFormedEncoding_length_le h, fun _ => h, nofun⟩

theorem EncWork.inv_reset : EncWork.reset.Inv := ⟨rfl, by decide, nofun, fun _ => rfl⟩

theorem DecWork.inv_reset : DecWork.reset.Inv := ⟨by decide, nofun, fun _ => rfl⟩

/-- The result record stands in the state: its invariant is that of the record alone. -/
theorem State.inv_of_result {s : State} {r : ResultRecord} (henc : s.encWork.Inv) (hdec : s.decWork.Inv)
    (hres : s.result = some r) (hr : r.Inv s.build) : s.Inv :=
  ⟨henc, hdec, fun r' hr' => by rwa [← Option.some.inj (hres.symm.trans hr')]⟩

/-- An operation keeps the invariant, whatever record is at the port. -/
theorem exec_keeps_inv {i : Instr} {s t : State} (hs : s.Inv) (h : exec i s = .next t) : t.Inv := by
  obtain ⟨henc, hdec, -⟩ := hs
  rcases encoder_or_decoder i with hi | hi
  · obtain ⟨rem, enc, hwf, hexec⟩ := exec_encoder hi s
    cases hexec.symm.trans h
    exact State.inv_of_result (EncWork.inv_done rem hwf) hdec rfl ⟨hwf, _, rfl⟩
  · rcases exec_decoder_cases hi s with ⟨v, n, h₁, h₂, hexec⟩ | ⟨acc, hexec⟩
    · cases hexec.symm.trans h
      exact State.inv_of_result henc ⟨h₂, fun _ => h₁, nofun⟩ rfl (ResultRecord.inv_decoded_success _ v h₁ h₂)
    · cases hexec.symm.trans h
      exact State.inv_of_result henc ⟨Nat.min_le_right _ _, nofun, nofun⟩ rfl
        (ResultRecord.inv_decoded_failure _ _ _)

theorem resetBlock_inv (s : State) : (resetBlock s).Inv :=
  ⟨EncWork.inv_reset, DecWork.inv_reset, nofun⟩

end Sys2Proof.Machine
end

section
/-! What a step can do: inversion of a step that answers a next state. -/

namespace Sys2Proof.Machine

theorem fetch_idle {s : State} (h : s.pending = []) : fetch s = .idle := by
  simp [fetch, h]

theorem fetch_interrupted {s : State} {r : InputRecord} {rest : List HostEvent}
    (h : s.pending = .interrupted r :: rest) : fetch s = abandonRecord r (s.setPending rest) := by
  simp [fetch, h]

theorem fetch_reset {s : State} {rest : List HostEvent} (h : s.pending = .reset :: rest) :
    fetch s = .over (resetBlock (s.setPending rest)) := by
  simp [fetch, h]

theorem fetch_unserialised {s : State} {a b : InputRecord} {shared : Bool} {rest : List HostEvent}
    (h : s.pending = .concurrent a b shared :: rest)
    (hs : shared = true ∧ appends a.cmd = true ∧ appends b.cmd = true) :
    fetch s = .refuse .unserialisedAppends := by
  simp [fetch, h, hs]

theorem fetchRecord_legal {r : InputRecord} (h : LegalCommand r.cmd) (s : State) :
    ∃ i, fetchRecord r s = .run i (s.setPort r) := by
  obtain ⟨i, hi⟩ := exists_decode_of_legal h
  exact ⟨i, fetchRecord_ok hi s⟩

theorem abandonRecord_illegal {r : InputRecord} (h : ¬ LegalCommand r.cmd) (s : State) :
    abandonRecord r s = .refuse (.illegalCommand r.cmd) := by
  simp [abandonRecord, decode_eq_error_of_illegal h]

theorem safe_iff_of_pending {s : State} {e : HostEvent} {rest : List HostEvent} (h : s.pending = e :: rest) :
    Safe s ↔ e.Dutiful ∧ Safe (s.setPending rest) := by
  simp [Safe, h]

/-- What taking the next event can give: nothing is presented; or one operation or reset is taken from the list, which
leaves the events `p` and some record `r` at the port; or the block refuses, which a dutiful host never meets. -/
theorem fetch_cases (s : State) :
    (s.pending = [] ∧ fetch s = .idle) ∨
    (∃ r p, stepsLeft s.pending = stepsLeft p + 1 ∧ (Safe s → Safe (s.setPending p)) ∧
      ((∃ i, fetch s = .run i ((s.setPending p).setPort r)) ∨
        fetch s = .over (resetBlock ((s.setPending p).setPort r)))) ∨
    (¬ Safe s ∧ ∃ why, fetch s = .refuse why) := by
  match h : s.pending with
  | [] => exact .inl ⟨rfl, fetch_idle h⟩
  | .operation r :: rest =>
    have hsafe := safe_iff_of_pending h
    by_cases hl : LegalCommand r.cmd
    · obtain ⟨i, hi⟩ := fetchRecord_legal hl (s.setPending rest)
      exact .inr (.inl ⟨r, rest, by simp [stepsLeft, Nat.add_comm], fun hs => (hsafe.1 hs).2,
        .inl ⟨i, by rw [fetch_operation h, hi]⟩⟩)
    · exact .inr (.inr ⟨fun hs => hl (hsafe.1 hs).1, _, by rw [fetch_operation h, fetchRecord_illegal hl]⟩)
  | .interrupted r :: rest =>
    have hsafe := safe_iff_of_pending h
    by_cases hl : LegalCommand r.cmd
    · exact .inr (.inl ⟨r, rest, by simp [stepsLeft, Nat.add_comm], fun hs => (hsafe.1 hs).2,
        .inr (by rw [fetch_interrupted h, abandonRecord_ok hl])⟩)
    · exact .inr (.inr ⟨fun hs => hl (hsafe.1 hs).1, _, by rw [fetch_interrupted h, abandonRecord_illegal hl]⟩)
  | .concurrent a b shared :: rest =>
    have hsafe := safe_iff_of_pending h
    by_cases hshared : shared = true ∧ appends a.cmd = true ∧ appends b.cmd = true
    · exact .inr (.inr ⟨fun hs => (hsafe.1 hs).1.2.2 hshared, _, fetch_unserialised h hshared⟩)
    · by_cases hl : LegalCommand a.cmd
      · obtain ⟨i, hi⟩ := fetchRecord_legal hl (s.setPending (.operation b :: rest))
        refine .inr (.inl ⟨a, .operation b :: rest, by simp [stepsLeft]; omega, fun hs => ?_,
          .inl ⟨i, by rw [fetch_concurrent h hshared, hi]⟩⟩)
        obtain ⟨⟨-, hb, -⟩, hrest⟩ := hsafe.1 hs
        exact (safe_iff_of_pending (e := .operation b) rfl).2 ⟨hb, hrest⟩
      · exact .inr (.inr ⟨fun hs => hl (hsafe.1 hs).1.1, _,
          by rw [fetch_concurrent h hshared, fetchRecord_illegal hl]⟩)
  | .reset :: rest =>
    exact .inr (.inl ⟨s.port, rest, by simp [stepsLeft, Nat.add_comm],
      fun hs => ((safe_iff_of_pending h).1 hs).2, .inr (fetch_reset h)⟩)

theorem step_of_fetch_idle {s : State} (h : fetch s = .idle) : step s = .next s := by
  simp [step, h]

theorem step_of_fetch_run {s t : State} {i : Instr} (h : fetch s = .run i t) : step s = exec i t := by
  simp [step, h]

theorem step_of_fetch_over {s t : State} (h : fetch s = .over t) : step s = .next t := by
  simp [step, h]

theorem step_of_fetch_refuse {s : State} {why : Refusal} (h : fetch s = .refuse why) : step s = .refused why := by
  simp [step, h]

/-- A step that answers a next state waits, or takes one operation or reset from the list and performs it. -/
theorem step_next_cases {s t : State} (h : step s = .next t) :
    (s.pending = [] ∧ t = s) ∨
    (∃ r p, stepsLeft s.pending = stepsLeft p + 1 ∧
      ((∃ i, exec i ((s.setPending p).setPort r) = .next t) ∨ t = resetBlock ((s.setPending p).setPort r))) := by
  rcases fetch_cases s with ⟨hp, hf⟩ | ⟨r, p, hleft, -, ⟨i, hf⟩ | hf⟩ | ⟨-, why, hf⟩
  · cases (step_of_fetch_idle hf).symm.trans h
    exact .inl ⟨hp, rfl⟩
  · exact .inr ⟨r, p, hleft, .inl ⟨i, (step_of_fetch_run hf).symm.trans h⟩⟩
  · cases (step_of_fetch_over hf).symm.trans h
    exact .inr ⟨r, p, hleft, .inr rfl⟩
  · cases (step_of_fetch_refuse hf).symm.trans h

end Sys2Proof.Machine
end

section
/-! The invariant, the build and the host's duties along a step (10_state.md R24, R26 to R29). -/

namespace Sys2Proof.Machine

/-- The invariant speaks of no field the host drives. -/
theorem State.Inv.setPending_setPort {s : State} (hs : s.Inv) (p : List HostEvent) (r : InputRecord) :
    ((s.setPending p).setPort r).Inv := hs

/-- Settles O49: by what a step can do, and that an operation and a reset each give a state that meets the
invariant. -/
theorem stepKeepsInvariant : Obligations.StepKeepsInvariant := by
  intro s t hs h
  rcases step_next_cases h with ⟨-, rfl⟩ | ⟨r, p, -, ⟨i, hexec⟩ | rfl⟩
  · exact hs
  · exact exec_keeps_inv (hs.setPending_setPort p r) hexec
  · exact resetBlock_inv _

/-- An operation counts at most one draw. -/
theorem exec_draws {i : Instr} {s t : State} (h : exec i s = .next t) :
    s.draws ≤ t.draws ∧ t.draws ≤ s.draws + 1 := by
  rcases encoder_or_decoder i with hi | hi
  · obtain ⟨_, _, -, hexec⟩ := exec_encoder hi s
    cases hexec.symm.trans h
    simp
  · rcases exec_decoder_cases hi s with ⟨_, _, -, -, hexec⟩ | ⟨_, hexec⟩ <;> cases hexec.symm.trans h <;> simp

/-- The law `exec_next`, for the state an operation is known to answer. -/
theorem exec_keeps_port_pending_build {i : Instr} {s t : State} (h : exec i s = .next t) :
    t.port = s.port ∧ t.pending = s.pending ∧ t.build = s.build := by
  obtain ⟨t', _, hexec, -, hframe⟩ := exec_next i s
  cases hexec.symm.trans h
  exact hframe

/-- Settles O50: by what a step can do, and the frame of an operation. -/
theorem stepKeepsBuild : Obligations.StepKeepsBuild := by
  intro s t h
  rcases step_next_cases h with ⟨hp, rfl⟩ | ⟨r, p, hleft, ⟨i, hexec⟩ | rfl⟩
  · simp [hp, stepsLeft]
  · obtain ⟨-, hpending, hbuild⟩ := exec_keeps_port_pending_build hexec
    have hdraws := exec_draws hexec
    exact ⟨hbuild, by simp [hpending, hleft], hdraws⟩
  · simp [hleft]

/-- Settles O51: a dutiful host never meets a refusal, and every operation completes. -/
theorem dutifulHostNeverStops : Obligations.DutifulHostNeverStops := by
  intro s hs
  rcases fetch_cases s with ⟨-, hf⟩ | ⟨r, p, -, hsafe, ⟨i, hf⟩ | hf⟩ | ⟨hunsafe, -⟩
  · exact ⟨s, step_of_fetch_idle hf, hs⟩
  · obtain ⟨t, _, hexec, -, -, hpending, -⟩ := exec_next i ((s.setPending p).setPort r)
    refine ⟨t, (step_of_fetch_run hf).trans hexec, ?_⟩
    rw [Safe, hpending]
    exact hsafe hs
  · exact ⟨_, step_of_fetch_over hf, hsafe hs⟩
  · exact absurd hs hunsafe

/-- Settles O6: nothing presented makes the step wait. -/
theorem idleBlockWaits : Obligations.IdleBlockWaits :=
  fun _ h => step_of_fetch_idle (fetch_idle h)

/-- Settles O24: an encoder writes its working state and the result record only. -/
theorem encodersFrame : Obligations.EncodersFrame := by
  intro i s t hi h
  obtain ⟨_, _, -, hexec⟩ := exec_encoder hi s
  cases hexec.symm.trans h
  exact ⟨rfl, rfl, rfl, rfl, rfl⟩

/-- Settles O37: a decoder writes its working state and the result record, and the draw counter only when it fails,
where no value is usable. -/
theorem decodersFrame : Obligations.DecodersFrame := by
  intro i s t hi h
  rcases exec_decoder_cases hi s with ⟨_, _, -, -, hexec⟩ | ⟨_, hexec⟩
  · cases hexec.symm.trans h
    exact ⟨rfl, rfl, rfl, rfl, fun _ _ _ => rfl⟩
  · cases hexec.symm.trans h
    refine ⟨rfl, rfl, rfl, rfl, fun r hr husable => ?_⟩
    obtain rfl := Option.some.inj hr
    exact absurd rfl husable

end Sys2Proof.Machine
end

section
/-! The 80-bit port forms of `In` and `Enc` (10_state.md R25, R26). -/

namespace Sys2Proof.Machine

/-- Bit `k` of byte `j` stands at bit `8j + k` of the packed bytes. -/
theorem getLsbD_packBytes {bs : List Byte} {j k : Nat} (hj : j < bs.length) (hk : k < 8) (hw : 8 * j + k < 80) :
    (packBytes bs).getLsbD (8 * j + k) = bs[j].getLsbD k := by
  induction bs generalizing j with
  | nil => simp at hj
  | cons b bs ih =>
    have hpack : packBytes (b :: bs) = (packBytes bs <<< 8) ||| b.setWidth 80 := rfl
    rw [hpack, BitVec.getLsbD_or, BitVec.getLsbD_shiftLeft, BitVec.getLsbD_setWidth]
    cases j with
    | zero => simp [hk]; omega
    | succ j =>
      have hbit : 8 * (j + 1) + k = 8 * j + k + 8 := by omega
      simp [hbit, ih (j := j) (by simpa using hj) (by omega)]
      omega

/-- Byte `j` stands at bits `8j+7:8j` of the port, whatever stands above the bytes. -/
theorem extractLsb'_portBits (fill : BitVec 80) {bs : List Byte} {j : Nat} (hj : j < bs.length)
    (hlen : bs.length ≤ 10) : (portBits fill bs).extractLsb' (8 * j) 8 = bs[j] := by
  apply BitVec.eq_of_getLsbD_eq
  intro k hk
  have hfill : (fill <<< (8 * bs.length)).getLsbD (8 * j + k) = false := by
    rw [BitVec.getLsbD_shiftLeft]
    simp
    omega
  rw [BitVec.getLsbD_extractLsb', portBits, BitVec.getLsbD_or, hfill, getLsbD_packBytes hj hk (by omega)]
  simp [hk]

theorem unpackBytes_portBits (fill : BitVec 80) {bs : List Byte} (hlen : bs.length ≤ 10) :
    unpackBytes (portBits fill bs) bs.length = bs := by
  apply List.ext_getElem
  · simp [unpackBytes]
  · intro j _ hj
    simp [unpackBytes, extractLsb'_portBits fill hj hlen]

/-- A length of at most 10 fits the 4-bit length of a port. -/
theorem toNat_ofNat_four {n : Nat} (h : n ≤ 10) : (BitVec.ofNat 4 n).toNat = n := by
  simp
  omega

theorem length_window (l : List Byte) : (window l).length = min l.length 10 := by
  simp [window, Nat.min_comm]

theorem InPort.inLen_ofBytes (fill : BitVec 80) (l : List Byte) :
    (InPort.ofBytes fill l).inLen.toNat = min l.length 10 :=
  toNat_ofNat_four (Nat.min_le_right _ _)

theorem InPort.bytes_ofBytes (fill : BitVec 80) (l : List Byte) : (InPort.ofBytes fill l).bytes = l.take 10 := by
  rw [InPort.bytes, InPort.inLen_ofBytes, ← length_window]
  exact unpackBytes_portBits fill (by rw [length_window]; exact Nat.min_le_right _ _)

theorem EncPort.bytes_ofBytes (fill : BitVec 80) {enc : List Byte} (hlen : enc.length ≤ 10) :
    (EncPort.ofBytes fill enc).bytes = enc := by
  simp only [EncPort.bytes, EncPort.ofBytes, toNat_ofNat_four hlen, unpackBytes_portBits fill hlen]

/-- Settles O42: the port holds the window byte by byte, and a decoder looks at nothing else. -/
theorem inputPortCarriesWindow : Obligations.InputPortCarriesWindow := by
  intro fill l
  refine ⟨InPort.bytes_ofBytes fill l, InPort.inLen_ofBytes fill l, fun j hj hj10 => ?_, fun i s hi => ?_⟩
  · have hwin : j < (window l).length := by rw [length_window]; omega
    have hbyte := extractLsb'_portBits fill hwin (by rw [length_window]; exact Nat.min_le_right _ _)
    exact hbyte.trans (by simp [window])
  · exact sameResult_of_take_ten_eq hi rfl (by simp [InPort.bytes_ofBytes])

/-- Settles O43: an encoding has at most 10 bytes, so the port holds each of them. -/
theorem outputPortCarriesEncoding : Obligations.OutputPortCarriesEncoding := by
  intro i s fill hi
  obtain ⟨_, enc, hwf, hexec⟩ := exec_encoder hi s
  have hlen := wellFormedEncoding_length_le hwf
  exact ⟨_, enc, _, hexec, rfl, toNat_ofNat_four hlen, EncPort.bytes_ofBytes fill hlen,
    fun _ hj => extractLsb'_portBits fill hj hlen⟩

end Sys2Proof.Machine
end

section
/-! The bits of an encoding's bytes (20_memory.md R41): what the encoders put there, and what DECU makes of them. -/

namespace Sys2Proof.Machine

/-- A payload bit of a group byte is the value's bit, whatever the flag. -/
theorem getLsbD_lowGroup_byte (v : Value) {b : Nat} (hb : b < 7) :
    ((v.setWidth 7).setWidth 8).getLsbD b = v.getLsbD b := by
  simp [hb]
  omega

theorem getLsbD_flagged (c : Byte) {b : Nat} (hb : b < 7) : (0x80#8 ||| c).getLsbD b = c.getLsbD b := by
  have hflag : (0x80#8).getLsbD b = false := by interval_cases b <;> rfl
  rw [BitVec.getLsbD_or, hflag, Bool.false_or]

/-- Byte `j` of ENCU's bytes carries value bits `7j+6:7j`, zeros above bit 63. -/
theorem EncuEmits.getLsbD_getElem {v : Value} {bs : List Byte} (h : EncuEmits v bs) {j b : Nat}
    (hj : j < bs.length) (hb : b < 7) : bs[j].getLsbD b = v.getLsbD (7 * j + b) := by
  induction h generalizing j with
  | final v _ =>
    obtain rfl : j = 0 := by simpa using hj
    simpa using getLsbD_lowGroup_byte v hb
  | more v bs _ _ ih =>
    cases j with
    | zero => simpa using (getLsbD_flagged _ hb).trans (getLsbD_lowGroup_byte v hb)
    | succ j =>
      have hbit : 7 * (j + 1) + b = 7 + (7 * j + b) := by omega
      rw [List.getElem_cons_succ, ih (by simpa using hj), BitVec.getLsbD_ushiftRight, hbit]

/-- A bit of an arithmetic right shift, counted as in an unbounded two's complement number. -/
theorem getLsbD_sshiftRight_min (v : Value) (n k : Nat) :
    (v.sshiftRight n).getLsbD (min k 63) = v.getLsbD (min (n + k) 63) := by
  rw [BitVec.getLsbD_sshiftRight, BitVec.msb_eq_getLsbD_last]
  by_cases hin : n + min k 63 < 64
  · have hpos : n + min k 63 = min (n + k) 63 := by omega
    simp [hpos]
  · have hpos : min (n + k) 63 = 63 := by omega
    simp [hin, hpos]

/-- Byte `j` of ENCS's bytes carries value bits `7j+6:7j`, copies of the sign above bit 63. -/
theorem EncsEmits.getLsbD_getElem {v : Value} {bs : List Byte} (h : EncsEmits v bs) {j b : Nat}
    (hj : j < bs.length) (hb : b < 7) : bs[j].getLsbD b = v.getLsbD (min (7 * j + b) 63) := by
  induction h generalizing j with
  | final v _ =>
    obtain rfl : j = 0 := by simpa using hj
    have hbit : min (7 * 0 + b) 63 = b := by omega
    rw [hbit]
    exact getLsbD_lowGroup_byte v hb
  | more v bs _ _ ih =>
    cases j with
    | zero =>
      have hbit : min (7 * 0 + b) 63 = b := by omega
      rw [hbit]
      exact (getLsbD_flagged _ hb).trans (getLsbD_lowGroup_byte v hb)
    | succ j =>
      have hbit : 7 * (j + 1) + b = 7 + (7 * j + b) := by omega
      rw [List.getElem_cons_succ, ih (by simpa using hj), getLsbD_sshiftRight_min, hbit]

/-- ENCU delivers the bytes its rule emits. -/
theorem exec_encu_result (s : State) : ∃ t enc, EncuEmits s.port.valueIn enc ∧ exec .encu s = .next t ∧
    t.result = some (.encoded enc (s.port.prefixIn ++ enc)) := by
  obtain ⟨enc, hemits, -, hrun⟩ := encRun_encu_start s.port.valueIn
  exact ⟨_, enc, hemits, rfl, by rw [encodeOp_eq, hrun]⟩

/-- ENCS delivers the bytes its rule emits. -/
theorem exec_encs_result (s : State) : ∃ t enc, EncsEmits s.port.valueIn enc ∧ exec .encs s = .next t ∧
    t.result = some (.encoded enc (s.port.prefixIn ++ enc)) := by
  obtain ⟨enc, hemits, -, hrun⟩ := encRun_encs_start s.port.valueIn
  exact ⟨_, enc, hemits, rfl, by rw [encodeOp_eq, hrun]⟩

/-- Settles O22: the bytes each encoder emits carry the value's groups in order, by induction on the emission. -/
theorem encodersLeastSignificantGroupFirst : Obligations.EncodersLeastSignificantGroupFirst := by
  intro s
  obtain ⟨t, e, hemits, hexec, hres⟩ := exec_encu_result s
  obtain ⟨u, e', hemits', hexec', hres'⟩ := exec_encs_result s
  exact ⟨t, u, e, e', hexec, hexec', hres, hres', fun _ hj _ hb => hemits.getLsbD_getElem hj hb,
    fun _ hj _ hb => hemits'.getLsbD_getElem hj hb⟩

/-- Assembling from one group further up shifts the value by one group. -/
theorem groupsFrom_succ (k : Nat) (bs : List Byte) : groupsFrom (k + 1) bs = groupsFrom k bs <<< 7 := by
  induction bs generalizing k with
  | nil => simp [groupsFrom]
  | cons b bs ih =>
    have hterm : groupTerm (k + 1) b = groupTerm k b <<< 7 := by
      simp [groupTerm, Nat.mul_add, BitVec.shiftLeft_add]
    rw [groupsFrom, groupsFrom, ih, hterm, BitVec.shiftLeft_or_distrib]

theorem unsignedValue_cons (b : Byte) (bs : List Byte) :
    unsignedValue (b :: bs) = (payload b).setWidth 64 ||| unsignedValue bs <<< 7 := by
  rw [unsignedValue, groupsFrom, groupsFrom_succ]
  simp [groupTerm, unsignedValue]

theorem getLsbD_payload (b : Byte) (k : Nat) : (payload b).getLsbD k = (decide (k < 7) && b.getLsbD k) := by
  simp [payload]

/-- Bit `j` of an unsigned value is payload bit `j mod 7` of byte `j div 7`, and 0 above the encoding
(30_encoding.md R62). -/
theorem getLsbD_unsignedValue (bs : List Byte) {j : Nat} (hj : j < 64) :
    (unsignedValue bs).getLsbD j = (decide (j < 7 * bs.length) && (bs.getD (j / 7) 0#8).getLsbD (j % 7)) := by
  induction bs generalizing j with
  | nil => simp [unsignedValue, groupsFrom]
  | cons b bs ih =>
    rw [unsignedValue_cons, BitVec.getLsbD_or, BitVec.getLsbD_setWidth, getLsbD_payload, BitVec.getLsbD_shiftLeft]
    by_cases h7 : j < 7
    · have hlen : j < 7 * (b :: bs).length := by rw [List.length_cons]; omega
      rw [decide_eq_true hlen]
      simp [h7, hj, Nat.div_eq_of_lt h7, Nat.mod_eq_of_lt h7]
    · obtain ⟨m, rfl⟩ : ∃ m, j = m + 7 := ⟨j - 7, by omega⟩
      have hlen : m + 7 < 7 * (b :: bs).length ↔ m < 7 * bs.length := by rw [List.length_cons]; omega
      simp only [hlen]
      simp [hj, ih (j := m) (by omega)]

/-- DECU's result on an input that begins with a well-formed encoding is its unsigned value. -/
theorem exec_decu_encoding (s : State) {B T : List Byte} (hB : wellFormedEncoding B = true)
    (hin : s.port.bytesIn = B ++ T) : ∃ t, exec .decu s = .next t ∧ t.result =
      some (.decoded (unsignedValue B) (BitVec.ofNat 8 B.length) (causeOutput s.build .none)) := by
  obtain ⟨init, last, rfl, hinit, hlast, hlen⟩ := (wellFormedEncoding_iff B).1 hB
  refine ⟨_, rfl, ?_⟩
  rw [decodeOp_encoding _ _ s hin hinit hlast hlen, List.length_append, List.length_singleton, decuExtend]

/-- Settles O31: DECU's value is the unsigned value of the encoding, whose bits are known. -/
theorem decuValueBits : Obligations.DecuValueBits := by
  intro s B T hB hin
  obtain ⟨t, hexec, hres⟩ := exec_decu_encoding s hB hin
  exact ⟨t, _, _, hexec, hres, fun _ hj => getLsbD_unsignedValue B hj⟩

end Sys2Proof.Machine
end

section
/-! Operations one after the other and together (20_memory.md R48, R49). -/

namespace Sys2Proof.Machine

theorem step_operation {s : State} {r : InputRecord} {rest : List HostEvent} {i : Instr}
    (h : s.pending = .operation r :: rest) (hi : decode r.cmd = .ok i) :
    step s = exec i ((s.setPending rest).setPort r) :=
  step_of_fetch_run ((fetch_operation h).trans (fetchRecord_ok hi _))

/-- Of two operations presented together, not both appends to one buffer, the first is performed and the second is
presented next. -/
theorem step_concurrent {s : State} {a b : InputRecord} {shared : Bool} {rest : List HostEvent} {i : Instr}
    (h : s.pending = .concurrent a b shared :: rest) (hi : decode a.cmd = .ok i)
    (hs : ¬ (shared = true ∧ appends a.cmd = true ∧ appends b.cmd = true)) :
    step s = exec i ((s.setPending (.operation b :: rest)).setPort a) :=
  step_of_fetch_run ((fetch_concurrent h hs).trans (fetchRecord_ok hi _))

theorem appends_iff {cmd : Byte} {i : Instr} (h : decode cmd = .ok i) :
    appends cmd = true ↔ i = .encu ∨ i = .encs := by
  cases i <;> simp [appends, h]

/-- The result of an operation depends on the record at the port and on the build alone, but for the draw of the free
value (20_memory.md R45, 70_reset_and_hazards.md R154). -/
theorem sameResult_of_port_build_eq (i : Instr) {s s' : State} (hport : s.port = s'.port)
    (hbuild : s.build = s'.build) : SameResult (resultOf (exec i s)) (resultOf (exec i s')) := by
  rcases encoder_or_decoder i with hi | hi
  · rcases hi with rfl | rfl <;>
      simp [exec, execEncu, execEncs, encodeOp_eq, resultOf, SameResult, ResultRecord.Agrees, hport]
  · exact sameResult_of_take_ten_eq hi hbuild (by rw [hport])

/-- Settles O45: each of the two is performed on its own record in the same build, and its result depends on nothing
else. -/
theorem concurrentOperationsAreIndependent : Obligations.ConcurrentOperationsAreIndependent := by
  intro s a b shared rest i j hp hi hj hnot
  have hs : ¬ (shared = true ∧ appends a.cmd = true ∧ appends b.cmd = true) := by
    rw [appends_iff hi, appends_iff hj]
    rintro ⟨rfl, rfl | rfl, rfl | rfl⟩ <;> simp at hnot
  obtain ⟨t, _, ht, -, -, htp, htb⟩ := exec_next i ((s.setPending (.operation b :: rest)).setPort a)
  obtain ⟨u, _, hu, -, -, hup, -⟩ := exec_next j ((t.setPending rest).setPort b)
  refine ⟨t, u, (step_concurrent hp hi hs).trans ht, (step_operation htp hj).trans hu, hup, ?_, ?_⟩
  · have hsame := sameResult_of_port_build_eq i
      (s := (s.setPending (.operation b :: rest)).setPort a) (s' := { State.reset with build := s.build, port := a })
      rfl rfl
    rwa [ht] at hsame
  · have hsame := sameResult_of_port_build_eq j
      (s := (t.setPending rest).setPort b) (s' := { State.reset with build := s.build, port := b }) rfl htb
    rwa [hu] at hsame

/-- The law `exec_encoder`, for the record an encoder delivers and the events it leaves presented. -/
theorem exec_encoder_result {i : Instr} (hi : i = .encu ∨ i = .encs) (s : State) :
    ∃ t enc, exec i s = .next t ∧ t.result = some (.encoded enc (s.port.prefixIn ++ enc)) ∧
      t.pending = s.pending := by
  obtain ⟨_, enc, -, hexec⟩ := exec_encoder hi s
  exact ⟨_, enc, hexec, rfl, rfl⟩

/-- Settles O46: each append delivers its own `Prefix` and then its encoding; an unserialised pair is refused before
either is performed. -/
theorem sharedBufferAppends : Obligations.SharedBufferAppends := by
  refine ⟨fun s a b rest i j hp hi hj hia hjb => ?_, fun s a b rest i j hp hi hj hia hjb => ?_⟩
  · obtain ⟨t, encA, hA, hresA, htp⟩ := exec_encoder_result hia ((s.setPending (.operation b :: rest)).setPort a)
    obtain ⟨u, encB, hB, hresB, -⟩ := exec_encoder_result hjb ((t.setPending rest).setPort b)
    refine ⟨t, u, encA, encB, _, (step_operation hp hi).trans hA, (step_operation htp hj).trans hB, hresA, hresB,
      fun hprefix => ?_⟩
    rw [State.setPort_port, hprefix]
  · exact step_of_fetch_refuse (fetch_unserialised hp ⟨rfl, (appends_iff hi).2 hia, (appends_iff hj).2 hjb⟩)

end Sys2Proof.Machine
end

section
/-! The command word and its decoder (30_encoding.md R70 to R74), and the step that runs what it decodes. -/

namespace Sys2Proof

@[simp] theorem CmdWord.ofByte_toByte (w : CmdWord) : CmdWord.ofByte w.toByte = w :=
  congrArg₂ CmdWord.mk BitVec.extractLsb'_append_eq_left BitVec.extractLsb'_append_eq_right

/-- The two fields of a command word are all of it. -/
@[simp] theorem CmdWord.toByte_ofByte (b : Byte) : (CmdWord.ofByte b).toByte = b :=
  BitVec.extractLsb'_append_extractLsb'

/-- A select field names an operation exactly when it is that operation's own. -/
theorem opInstr_eq_iff (op : BitVec 2) (i : Instr) : opInstr op = i ↔ op = i.op := by
  revert op
  cases i <;> decide

end Sys2Proof

namespace Sys2Proof.Machine

theorem legalCommand_iff_toNat_le (cmd : Byte) : LegalCommand cmd ↔ cmd.toNat ≤ 3 := by
  have := cmd.isLt
  rw [LegalCommand, ← BitVec.toNat_inj, BitVec.extractLsb'_toNat, Nat.shiftRight_eq_div_pow]
  simp
  omega

theorem exists_decode_iff_legal (cmd : Byte) : (∃ i, decode cmd = .ok i) ↔ LegalCommand cmd :=
  ⟨fun ⟨i, hi⟩ => ((decode_eq_ok_iff cmd i).1 hi).1, exists_decode_of_legal⟩

/-- A command word selects an operation exactly when its fields are that operation's. -/
theorem decode_eq_ok_iff_ofByte (cmd : Byte) (i : Instr) : decode cmd = .ok i ↔ CmdWord.ofByte cmd = i.cmdWord := by
  rw [decode_eq_ok_iff, opInstr_eq_iff, CmdWord.ofByte, Instr.cmdWord, CmdWord.mk.injEq, LegalCommand]

/-- Settles O3: decoding looks at the fields, and the fields are the whole word. -/
theorem decodeIffEncode : Obligations.DecodeIffEncode := by
  intro i cmd
  rw [decode_eq_ok_iff_ofByte, encode]
  constructor
  · intro h
    rw [← h, CmdWord.toByte_ofByte]
  · rintro rfl
    exact CmdWord.ofByte_toByte _

@[simp] theorem decode_encode (i : Instr) : decode (encode i) = .ok i :=
  (decodeIffEncode i _).2 rfl

/-- Settles O1: each of the four words is its operation's encoding. -/
theorem commandWordsSelectOperations : Obligations.CommandWordsSelectOperations :=
  ⟨(decodeIffEncode .encu _).2 (by decide), (decodeIffEncode .encs _).2 (by decide),
    (decodeIffEncode .decu _).2 (by decide), (decodeIffEncode .decs _).2 (by decide)⟩

/-- Settles O2: a word is legal when its upper field is 0, and every operation completes. -/
theorem legalCommandsAreTheFourOperations : Obligations.LegalCommandsAreTheFourOperations := by
  refine ⟨fun cmd => (exists_decode_iff_legal cmd).trans (legalCommand_iff_toNat_le cmd), fun op => ?_,
    fun cmd i s _ => ?_⟩
  · exact ⟨opInstr op, (decode_eq_ok_iff_ofByte _ _).2
      ((CmdWord.ofByte_toByte { rsv := 0#6, op := op }).trans
        (congrArg (CmdWord.mk 0#6) ((opInstr_eq_iff op _).1 rfl)))⟩
  · obtain ⟨t, r, hexec, hres, -⟩ := exec_next i s
    exact ⟨t, r, hexec, hres⟩

/-- Settles O5: the law of a step, for a single operation and for the first of two. -/
theorem stepRunsDecodedInstruction : Obligations.StepRunsDecodedInstruction :=
  ⟨fun _ _ _ _ => step_operation, fun _ _ _ _ _ _ => step_concurrent⟩

end Sys2Proof.Machine
end

section
/-! The count of a decode (30_encoding.md R64, 41_decode.md R102, R104). -/

namespace Sys2Proof.Machine

/-- A count of at most 10 fits the 8-bit output. -/
theorem toNat_ofNat_eight {n : Nat} (h : n ≤ 10) : (BitVec.ofNat 8 n).toNat = n := by
  simp
  omega

theorem encodingLength?_encoding {init T : List Byte} {last : Byte} (hinit : ∀ b ∈ init, contFlag b = true)
    (hlast : contFlag last = false) (hlen : init.length ≤ 9) :
    encodingLength? (init ++ [last] ++ T) = some (init.length + 1) := by
  have hscan : init.findIdx? (fun b => !contFlag b) = none :=
    List.findIdx?_eq_none_iff.2 fun b hb => by simp [hinit b hb]
  simp [encodingLength?, window, List.findIdx?_append, hscan, List.findIdx?_cons, hlast]
  omega

theorem encodingLength?_noTerminator {l : List Byte} (h : NoTerminator l) : encodingLength? l = none := by
  have hscan : (window l).findIdx? (fun b => !contFlag b) = none :=
    List.findIdx?_eq_none_iff.2 fun b hb => by simp [contFlag, h b hb]
  simp [encodingLength?, hscan]

/-- Settles O53: the decoder machine stops at the byte the scan finds, and fails where it finds none. -/
theorem countIsTheScannedLength : Obligations.CountIsTheScannedLength := by
  intro i s hi
  obtain ⟨extend, hexec⟩ := exec_decoder hi
  rcases noTerminator_or_encoding s.port.bytesIn with h | ⟨init, last, T, hin, hinit, hlast, hlen⟩
  · exact ⟨_, _, _, _, hexec s, by rw [decodeOp_noTerminator _ _ _ h], by simp [encodingLength?_noTerminator h]⟩
  · refine ⟨_, _, _, _, hexec s, by rw [decodeOp_encoding _ _ _ hin hinit hlast hlen], ?_⟩
    rw [hin, encodingLength?_encoding hinit hlast hlen]
    exact toNat_ofNat_eight (by omega)

end Sys2Proof.Machine
end

section
/-! The length of the encoders' encodings (30_encoding.md R65, R66). -/

namespace Sys2Proof.Machine

theorem EncuEmits.ne_nil {v : Value} {bs : List Byte} (h : EncuEmits v bs) : bs ≠ [] := by
  cases h <;> simp

theorem EncsEmits.ne_nil {v : Value} {bs : List Byte} (h : EncsEmits v bs) : bs ≠ [] := by
  cases h <;> simp

theorem ushiftRight_seven_eq_zero_iff (v : Value) : v >>> 7 = 0#64 ↔ v.toNat < 2 ^ 7 := by
  rw [← BitVec.toNat_inj, BitVec.toNat_ushiftRight, Nat.shiftRight_eq_div_pow]
  simp

theorem toInt_sshiftRight_seven (v : Value) : (v.sshiftRight 7).toInt = v.toInt / 128 := by
  rw [BitVec.toInt_sshiftRight, Int.shiftRight_eq_div_pow]
  rfl

/-- ENCS stops exactly on the values of one signed group. -/
theorem encsStops_iff (v : Value) : EncsStops v ↔ -64 ≤ v.toInt ∧ v.toInt < 64 := by
  refine ⟨fun h => ?_, fun ⟨h₁, h₂⟩ => encsStops_of_small h₁ h₂⟩
  have hbit : v.getLsbD 6 = decide (v.toInt / 64 % 2 = 1) := by
    have hn := BitVec.toInt_eq_toNat_cond v
    have hnat : v.getLsbD 6 = decide (v.toNat / 64 % 2 = 1) := by
      simp [BitVec.getLsbD, Nat.testBit_eq_decide_div_mod_eq]
    rw [hnat, decide_eq_decide]
    omega
  have hshift := toInt_sshiftRight_seven v
  rcases h with ⟨hrest, hsign⟩ | ⟨hrest, hsign⟩
  · rw [hrest, BitVec.toInt_zero] at hshift
    rw [hbit, decide_eq_false_iff_not] at hsign
    omega
  · rw [hrest, BitVec.toInt_allOnes] at hshift
    rw [hbit, decide_eq_true_iff] at hsign
    omega

/-- ENCU gives at most `n + 1` bytes exactly to the values of at most `7(n+1)` bits. -/
theorem EncuEmits.length_le_iff {v : Value} {bs : List Byte} (h : EncuEmits v bs) (n : Nat) :
    bs.length ≤ n + 1 ↔ v.toNat < 2 ^ (7 * n + 7) := by
  induction h generalizing n with
  | final v hv =>
    have hlt := (ushiftRight_seven_eq_zero_iff v).1 hv
    have hpow : 2 ^ 7 ≤ 2 ^ (7 * n + 7) := Nat.pow_le_pow_right (by decide) (by omega)
    exact iff_of_true (by simp) (by omega)
  | more v bs hv hbs ih =>
    have hge := mt (ushiftRight_seven_eq_zero_iff v).2 hv
    cases n with
    | zero => exact iff_of_false (by simpa using hbs.ne_nil) (by simpa using hge)
    | succ n =>
      rw [List.length_cons, Nat.add_le_add_iff_right, ih, BitVec.toNat_ushiftRight, Nat.shiftRight_eq_div_pow,
        Nat.div_lt_iff_lt_mul (by decide), ← pow_add]
      rfl

/-- ENCS gives at most `n + 1` bytes exactly to the values of at most `7(n+1)` bits with their sign. -/
theorem EncsEmits.length_le_iff {v : Value} {bs : List Byte} (h : EncsEmits v bs) (n : Nat) :
    bs.length ≤ n + 1 ↔ -(2 : Int) ^ (7 * n + 6) ≤ v.toInt ∧ v.toInt < 2 ^ (7 * n + 6) := by
  induction h generalizing n with
  | final v hv =>
    have hsmall := (encsStops_iff v).1 hv
    have hpow : (2 : Int) ^ 6 ≤ 2 ^ (7 * n + 6) := pow_le_pow_right₀ (by decide) (by omega)
    exact iff_of_true (by simp) (by omega)
  | more v bs hv hbs ih =>
    have hlarge := mt (encsStops_iff v).2 hv
    cases n with
    | zero => exact iff_of_false (by simpa using hbs.ne_nil) (by simpa using hlarge)
    | succ n =>
      have hpow : (2 : Int) ^ (7 * (n + 1) + 6) = 2 ^ (7 * n + 6) * 128 := by
        rw [show 7 * (n + 1) + 6 = 7 * n + 6 + 7 by omega, pow_add]; rfl
      rw [List.length_cons, Nat.add_le_add_iff_right, ih, toInt_sshiftRight_seven, hpow]
      omega

/-- A number of bit length `bits` is below exactly the powers from `2 ^ bits` on. -/
theorem lt_two_pow_iff_of_bits {m bits : Nat} (hlt : m < 2 ^ bits) (hge : bits = 0 ∨ 2 ^ (bits - 1) ≤ m) (k : Nat) :
    m < 2 ^ k ↔ bits ≤ k := by
  refine ⟨fun hk => ?_, fun hk => hlt.trans_le (Nat.pow_le_pow_right (by decide) hk)⟩
  rcases hge with rfl | hge
  · omega
  · have := (Nat.pow_lt_pow_iff_right (by decide)).1 (hge.trans_lt hk)
    omega

/-- Settles O16: each range is what the bounds on the length for two successive lengths leave. -/
theorem unsignedLengthByRange : Obligations.UnsignedLengthByRange := by
  intro s
  obtain ⟨t, enc, hemits, hexec, hres⟩ := exec_encu_result s
  have hpos := List.length_pos_iff.2 hemits.ne_nil
  refine ⟨t, enc, hexec, hres, fun bits hlt hge => ?_, ?_, fun n h₂ _ => ?_, ?_⟩
  · have hle : ∀ n, enc.length ≤ n + 1 ↔ bits ≤ 7 * n + 7 := fun n =>
      (hemits.length_le_iff n).trans (lt_two_pow_iff_of_bits hlt hge _)
    have hupper := hle ((bits + 6) / 7 - 1)
    have hlower := hle (enc.length - 1)
    omega
  · have := hemits.length_le_iff 0
    omega
  · obtain ⟨k, rfl⟩ : ∃ k, n = k + 2 := ⟨n - 2, by omega⟩
    have hupper := hemits.length_le_iff (k + 1)
    have hlower := hemits.length_le_iff k
    rw [show 7 * (k + 2 - 1) = 7 * k + 7 by omega, show 7 * (k + 2) = 7 * (k + 1) + 7 by omega]
    omega
  · have hupper := hemits.length_le_iff 9
    have hlower := hemits.length_le_iff 8
    have := s.port.valueIn.isLt
    omega

/-- Settles O17: each range is what the bounds on the length for two successive lengths leave. -/
theorem signedLengthByRange : Obligations.SignedLengthByRange := by
  intro s
  obtain ⟨t, enc, hemits, hexec, hres⟩ := exec_encs_result s
  have hpos := List.length_pos_iff.2 hemits.ne_nil
  refine ⟨t, enc, hexec, hres, fun m bits hm hlt hge => ?_, ?_, fun n h₂ _ => ?_⟩
  · have hle : ∀ n, enc.length ≤ n + 1 ↔ bits ≤ 7 * n + 6 := fun n => by
      rw [hemits.length_le_iff, ← lt_two_pow_iff_of_bits hlt hge, ← Int.ofNat_lt]
      push_cast
      omega
    have hupper := hle ((bits + 7) / 7 - 1)
    have hlower := hle (enc.length - 1)
    omega
  · have := hemits.length_le_iff 0
    omega
  · obtain ⟨k, rfl⟩ : ∃ k, n = k + 2 := ⟨n - 2, by omega⟩
    have hupper := hemits.length_le_iff (k + 1)
    have hlower := hemits.length_le_iff k
    rw [show 7 * (k + 2 - 1) - 1 = 7 * k + 6 by omega, show 7 * (k + 2) - 1 = 7 * (k + 1) + 6 by omega]
    omega

end Sys2Proof.Machine
end

section
/-! What the encoders emit stands for the value (30_encoding.md R62, R63), so a decode gives it back (41_decode.md
R110, R114). -/

namespace Sys2Proof.Machine

@[simp] theorem payload_setWidth_group (g : Group) : payload (g.setWidth 8) = g := by
  ext k hk
  have h8 : k < 8 := by omega
  simp [payload, h8, hk]

@[simp] theorem payload_flagged (b : Byte) : payload (0x80#8 ||| b) = payload b := by
  apply BitVec.eq_of_getLsbD_eq
  intro k hk
  rw [getLsbD_payload, getLsbD_payload, getLsbD_flagged b hk]

/-- A value is its low group and the rest shifted back. -/
theorem lowGroup_or_rest (v : Value) : (v.setWidth 7).setWidth 64 ||| (v >>> 7) <<< 7 = v := by
  apply BitVec.eq_of_getLsbD_eq
  intro k hk
  by_cases h7 : k < 7
  · simp [h7, hk]
  · have hpos : 7 + (k - 7) = k := by omega
    simp [h7, hk, hpos]

/-- Shifted back, an arithmetic rest is the logical one: the copies of the sign are lost. -/
theorem sshiftRight_seven_shiftLeft (v : Value) : v.sshiftRight 7 <<< 7 = (v >>> 7) <<< 7 := by
  apply BitVec.eq_of_getLsbD_eq
  intro k hk
  by_cases h7 : k < 7
  · simp [h7]
  · have hpos : 7 + (k - 7) = k := by omega
    simp [h7, hk, hpos, BitVec.getElem_sshiftRight]

/-- ENCU's bytes have the value as their unsigned value. -/
theorem EncuEmits.unsignedValue_eq {v : Value} {bs : List Byte} (h : EncuEmits v bs) : unsignedValue bs = v := by
  induction h with
  | final v hv =>
    have := lowGroup_or_rest v
    rw [hv] at this
    rw [unsignedValue_cons, payload_setWidth_group]
    exact this
  | more v bs _ _ ih => rw [unsignedValue_cons, ih, payload_flagged, payload_setWidth_group, lowGroup_or_rest]

theorem onesFrom_add_seven (n : Nat) : onesFrom (n + 7) = onesFrom n <<< 7 :=
  BitVec.shiftLeft_add ..

/-- What DECS does to the accumulator on the last byte of an encoding makes it the signed value. -/
theorem decsExtend_eq_signedValue (init : List Byte) (last : Byte) :
    decsExtend (init.length + 1) last (unsignedValue (init ++ [last])) = signedValue (init ++ [last]) := by
  have hlast : (init ++ [last]).getLast?.any signBit = signBit last := by simp
  simp only [decsExtend, signedValue, hlast, List.length_append, List.length_singleton]

theorem onesFrom_eq_zero {n : Nat} (h : 64 ≤ n) : onesFrom n = 0#64 :=
  BitVec.shiftLeft_eq_zero h

/-- The signed value, without the boundary of the extension: from bit 64 on there is nothing to set. -/
theorem signedValue_eq_or (enc : List Byte) : signedValue enc =
    unsignedValue enc ||| if enc.getLast?.any signBit = true then onesFrom (7 * enc.length) else 0#64 := by
  by_cases hlen : 7 * enc.length < 64
  · cases hneg : enc.getLast?.any signBit <;> simp [signedValue, hlen, hneg]
  · simp [signedValue, hlen, onesFrom_eq_zero (Nat.le_of_not_lt hlen)]

theorem signedValue_singleton (b : Byte) :
    signedValue [b] = (payload b).setWidth 64 ||| (if signBit b = true then BitVec.allOnes 64 else 0#64) <<< 7 := by
  have hones : onesFrom 7 = BitVec.allOnes 64 <<< 7 := by decide
  rw [signedValue_eq_or, unsignedValue_cons]
  cases hs : signBit b <;> simp [hs, hones, unsignedValue, groupsFrom]

/-- A group below a signed encoding shifts its signed value by one group: of the extension only the boundary moves. -/
theorem signedValue_cons (b : Byte) {bs : List Byte} (hbs : bs ≠ []) :
    signedValue (b :: bs) = (payload b).setWidth 64 ||| signedValue bs <<< 7 := by
  have hlast : (b :: bs).getLast? = bs.getLast? := by simp [List.getLast?_cons, List.getLast?_eq_some_getLast hbs]
  have hlen : 7 * (b :: bs).length = 7 * bs.length + 7 := by rw [List.length_cons]; omega
  rw [signedValue_eq_or, signedValue_eq_or, unsignedValue_cons, hlast, hlen, onesFrom_add_seven,
    BitVec.shiftLeft_or_distrib, BitVec.or_assoc]
  cases bs.getLast?.any signBit <;> simp

/-- ENCS's bytes have the value as their signed value. -/
theorem EncsEmits.signedValue_eq {v : Value} {bs : List Byte} (h : EncsEmits v bs) : signedValue bs = v := by
  induction h with
  | final v hv =>
    have hsign : signBit ((v.setWidth 7).setWidth 8) = v.getLsbD 6 := getLsbD_lowGroup_byte v (by decide)
    have hrest : (if v.getLsbD 6 = true then BitVec.allOnes 64 else 0#64) = v.sshiftRight 7 := by
      rcases hv with ⟨hrest, hbit⟩ | ⟨hrest, hbit⟩ <;> rw [hrest, hbit] <;> rfl
    rw [signedValue_singleton, hsign, hrest, payload_setWidth_group, sshiftRight_seven_shiftLeft, lowGroup_or_rest]
  | more v bs _ hbs ih =>
    rw [signedValue_cons _ hbs.ne_nil, ih, payload_flagged, payload_setWidth_group, sshiftRight_seven_shiftLeft,
      lowGroup_or_rest]

/-- DECS's result on an input that begins with a well-formed encoding is its signed value. -/
theorem exec_decs_encoding (s : State) {B T : List Byte} (hB : wellFormedEncoding B = true)
    (hin : s.port.bytesIn = B ++ T) : ∃ t, exec .decs s = .next t ∧ t.result =
      some (.decoded (signedValue B) (BitVec.ofNat 8 B.length) (causeOutput s.build .none)) := by
  obtain ⟨init, last, rfl, hinit, hlast, hlen⟩ := (wellFormedEncoding_iff B).1 hB
  refine ⟨_, rfl, ?_⟩
  rw [decodeOp_encoding _ _ s hin hinit hlast hlen, decsExtend_eq_signedValue, List.length_append,
    List.length_singleton]

/-- Every value is below `2 ^ 70`, so ENCU gives a well-formed encoding (40_encode.md R82). -/
theorem EncuEmits.wellFormed_of_value {v : Value} {bs : List Byte} (h : EncuEmits v bs) :
    wellFormedEncoding bs = true :=
  h.wellFormed ((h.length_le_iff 9).2 (by have := v.isLt; omega))

/-- Every value fits 70 bits with its sign, so ENCS gives a well-formed encoding (40_encode.md R87). -/
theorem EncsEmits.wellFormed_of_value {v : Value} {bs : List Byte} (h : EncsEmits v bs) :
    wellFormedEncoding bs = true :=
  h.wellFormed ((h.length_le_iff 9).2 (by
    have := BitVec.le_toInt v
    have := BitVec.toInt_lt (x := v)
    omega))

/-- A decode whose count is the length of a well-formed encoding has a usable value, and advances by the count. -/
theorem usable_and_advance_of_wellFormed {enc : List Byte} (h : wellFormedEncoding enc = true) (v : Value)
    (f : Option (BitVec 2)) :
    (ResultRecord.decoded v (BitVec.ofNat 8 enc.length) f).usableValue = some v ∧
      (ResultRecord.decoded v (BitVec.ofNat 8 enc.length) f).cursorAdvance = some enc.length := by
  have hn := toNat_ofNat_eight (wellFormedEncoding_length_le h)
  have hne : BitVec.ofNat 8 enc.length ≠ 0#8 := by
    intro hzero
    obtain ⟨init, last, rfl, -⟩ := (wellFormedEncoding_iff enc).1 h
    rw [hzero] at hn
    simp at hn
  simp only [ResultRecord.usableValue, ResultRecord.cursorAdvance, if_neg hne, hn, and_self]

/-- What `i` encodes is well formed, and `j` decodes it to the value and the length, whatever bytes follow. -/
def RoundTrips (i j : Instr) : Prop :=
  ∀ s : State, ∃ (t : State) (enc : List Byte), exec i s = .next t ∧
    t.result = some (.encoded enc (s.port.prefixIn ++ enc)) ∧ wellFormedEncoding enc = true ∧
    ∀ (u : State) (T : List Byte), u.port.bytesIn = enc ++ T → ∃ u', exec j u = .next u' ∧
      u'.result = some (.decoded s.port.valueIn (BitVec.ofNat 8 enc.length) (causeOutput u.build .none))

theorem roundTrips_encu_decu : RoundTrips .encu .decu := by
  intro s
  obtain ⟨t, enc, hemits, hexec, hres⟩ := exec_encu_result s
  have hwf := hemits.wellFormed_of_value
  exact ⟨t, enc, hexec, hres, hwf, fun u T hin => hemits.unsignedValue_eq ▸ exec_decu_encoding u hwf hin⟩

theorem roundTrips_encs_decs : RoundTrips .encs .decs := by
  intro s
  obtain ⟨t, enc, hemits, hexec, hres⟩ := exec_encs_result s
  have hwf := hemits.wellFormed_of_value
  exact ⟨t, enc, hexec, hres, hwf, fun u T hin => hemits.signedValue_eq ▸ exec_decs_encoding u hwf hin⟩

/-- An operation presented to a block just reset runs on its record. -/
theorem step_reset_operation {r : InputRecord} {i : Instr} (h : decode r.cmd = .ok i) :
    step { State.reset with pending := [.operation r] } = exec i (State.reset.setPort r) :=
  step_operation (rest := []) rfl h

/-- An encoding appended to a buffer is read back at the buffer's old end (30_encoding.md R76). -/
theorem RoundTrips.readBack {i j : Instr} (h : RoundTrips i j) (buf T : List Byte) (v : Value) :
    ∃ (t u : State) (enc : List Byte) (r : ResultRecord),
      step { State.reset with pending :=
        [.operation { InputRecord.idle with cmd := encode i, valueIn := v, prefixIn := buf }] } = .next t ∧
      t.result = some (.encoded enc (buf ++ enc)) ∧
      step { State.reset with pending :=
        [.operation { InputRecord.idle with cmd := encode j, bytesIn := (buf ++ enc ++ T).drop buf.length }] } =
          .next u ∧
      u.result = some r ∧ r.usableValue = some v ∧ r.cursorAdvance = some enc.length := by
  obtain ⟨t, enc, hexec, hres, hwf, hback⟩ := h (State.reset.setPort
    { InputRecord.idle with cmd := encode i, valueIn := v, prefixIn := buf })
  obtain ⟨u, hdec, hval⟩ := hback (State.reset.setPort
    { InputRecord.idle with cmd := encode j, bytesIn := (buf ++ enc ++ T).drop buf.length }) T (by simp)
  exact ⟨t, u, enc, _, Eq.trans (step_reset_operation (decode_encode i)) hexec, hres,
    Eq.trans (step_reset_operation (decode_encode j)) hdec, hval, usable_and_advance_of_wellFormed hwf v _⟩

/-- Settles O41: both pairs of operations round trip, and the statements of R76 are the records that are read back. -/
theorem streamReadsBackAtCursor : Obligations.StreamReadsBackAtCursor :=
  fun buf T v => ⟨roundTrips_encu_decu.readBack buf T v, roundTrips_encs_decs.readBack buf T v⟩

end Sys2Proof.Machine
end

section
/-! The bytes of an encoding as a function of the value (40_encode.md R80, R81, R83, R86). -/

namespace Sys2Proof.Machine

/-- The bytes an encoder with this iteration emits for `v`. -/
def encoderBytes (iter : EncWork → EncWork) (v : Value) : List Byte := (encRun iter 10 (EncWork.start v)).enc

theorem encodeOp_result (iter : EncWork → EncWork) (s : State) : (encodeOp iter s).result =
    some (.encoded (encoderBytes iter s.port.valueIn) (s.port.prefixIn ++ encoderBytes iter s.port.valueIn)) := rfl

theorem encodeOp_result_of_bytes {iter : EncWork → EncWork} {s : State} {enc : List Byte}
    (h : encoderBytes iter s.port.valueIn = enc) :
    (encodeOp iter s).result = some (.encoded enc (s.port.prefixIn ++ enc)) := by
  rw [encodeOp_result, h]

/-- A table of values and their encodings says what the operation delivers in any state. -/
theorem encodeOp_result_of_table {iter : EncWork → EncWork} {table : List (Value × List Byte)}
    (h : ∀ p ∈ table, encoderBytes iter p.1 = p.2) (v : Value) (enc : List Byte) (s : State)
    (hmem : (v, enc) ∈ table) (hv : s.port.valueIn = v) :
    (encodeOp iter s).result = some (.encoded enc (s.port.prefixIn ++ enc)) :=
  encodeOp_result_of_bytes (hv ▸ h (v, enc) hmem)

theorem encuEmits_encoderBytes (v : Value) : EncuEmits v (encoderBytes encuIter v) := by
  obtain ⟨enc, hemits, -, hrun⟩ := encRun_encu_start v
  rwa [encoderBytes, hrun]

theorem encsEmits_encoderBytes (v : Value) : EncsEmits v (encoderBytes encsIter v) := by
  obtain ⟨enc, hemits, -, hrun⟩ := encRun_encs_start v
  rwa [encoderBytes, hrun]

/-- Each encoder is the encode operation, with its own iteration. -/
theorem exec_encoder_eq {i : Instr} (hi : i = .encu ∨ i = .encs) :
    ∃ iter, ∀ s, exec i s = .next (encodeOp iter s) := by
  rcases hi with rfl | rfl
  · exact ⟨encuIter, fun _ => rfl⟩
  · exact ⟨encsIter, fun _ => rfl⟩

/-- Settles O18: the result is made of `Prefix` and the bytes of the value. -/
theorem encodersAppend : Obligations.EncodersAppend := by
  intro i s s' hi hv
  obtain ⟨iter, hexec⟩ := exec_encoder_eq hi
  exact ⟨encoderBytes iter s.port.valueIn, _, _, hexec s, hexec s', encodeOp_result iter s,
    encodeOp_result_of_bytes (congrArg (encoderBytes iter) hv.symm)⟩

/-- Settles O19: the value is the unsigned value of its bytes, so the bytes determine it. -/
theorem encuIsUnique : Obligations.EncuIsUnique := by
  refine ⟨encoderBytes encuIter, encodeOp_result encuIter, fun v v' h => ?_⟩
  rw [← (encuEmits_encoderBytes v).unsignedValue_eq, h, (encuEmits_encoderBytes v').unsignedValue_eq]

/-- Settles O23: each row of the two tables is one evaluation of the encoder's loop. -/
theorem encoderCornerCases : Obligations.EncoderCornerCases :=
  ⟨encodeOp_result_of_table (by decide), encodeOp_result_of_table (by decide)⟩

/-- Settles O10: the loop of R81 reaches DONE, and the operation writes nothing but its working state and result. -/
theorem encuResult : Obligations.EncuResult := by
  refine ⟨fun s => ?_, fun s hv => encodeOp_result_of_bytes (by rw [hv]; decide)⟩
  obtain ⟨enc, hemits, -, hrun⟩ := encRun_encu_start s.port.valueIn
  exact ⟨enc, hemits, by rw [exec, execEncu, encodeOp_eq, hrun]⟩

/-- Settles O11: the loop of R86 reaches DONE, and the operation writes nothing but its working state and result. -/
theorem encsResult : Obligations.EncsResult := by
  refine ⟨fun s => ?_, fun s hv => encodeOp_result_of_bytes (by rw [hv]; decide)⟩
  obtain ⟨enc, hemits, -, hrun⟩ := encRun_encs_start s.port.valueIn
  exact ⟨enc, hemits, by rw [exec, execEncs, encodeOp_eq, hrun]⟩

end Sys2Proof.Machine
end

section
/-! What each iteration of the encoders' loops leaves of the value, and the last byte (40_encode.md R82, R87). -/

namespace Sys2Proof.Machine

/-- 64 copies of the sign of `v`, the rest at which ENCS stops (40_encode.md R86). -/
def signCopies (v : Value) : Value := if v.getLsbD 63 = true then BitVec.allOnes 64 else 0#64

theorem signCopies_eq_zero_or_allOnes (v : Value) : signCopies v = 0#64 ∨ signCopies v = BitVec.allOnes 64 := by
  unfold signCopies
  split <;> simp

theorem getLsbD_signCopies (v : Value) {k : Nat} (hk : k < 64) : (signCopies v).getLsbD k = v.getLsbD 63 := by
  unfold signCopies
  split
  next hneg => rw [hneg, BitVec.getLsbD_allOnes, decide_eq_true hk]
  next hpos => rw [Bool.eq_false_of_not_eq_true hpos, BitVec.getLsbD_zero]

/-- Where all bits from `n` on are the sign, a shift by `n` leaves only copies of it. -/
theorem sshiftRight_eq_signCopies {v : Value} {n : Nat} (h : ∀ k, n ≤ k → k < 64 → v.getLsbD k = v.getLsbD 63) :
    v.sshiftRight n = signCopies v := by
  apply BitVec.eq_of_getLsbD_eq
  intro k hk
  rw [getLsbD_signCopies v hk, BitVec.getLsbD_sshiftRight, BitVec.msb_eq_getLsbD_last]
  rw [decide_eq_false (Nat.not_le_of_lt hk), Bool.not_false, Bool.true_and]
  split
  next hin => exact h (n + k) (by omega) hin
  next => rfl

theorem sshiftRight_sixtyThree (v : Value) : v.sshiftRight 63 = signCopies v :=
  sshiftRight_eq_signCopies fun k h₁ h₂ => by rw [show k = 63 by omega]

theorem signCopies_eq_of_sign_eq {v v' : Value} (h : v.getLsbD 63 = v'.getLsbD 63) : signCopies v = signCopies v' := by
  rw [signCopies, signCopies, h]

/-- Shifting copies of the sign changes nothing. -/
theorem sshiftRight_signCopies (v : Value) (n : Nat) : (signCopies v).sshiftRight n = signCopies v := by
  have hsign := getLsbD_signCopies v (show 63 < 64 by decide)
  have hbits : ∀ k, n ≤ k → k < 64 → (signCopies v).getLsbD k = (signCopies v).getLsbD 63 :=
    fun k _ hk => (getLsbD_signCopies v hk).trans hsign.symm
  exact (sshiftRight_eq_signCopies hbits).trans (signCopies_eq_of_sign_eq hsign)

/-- After `n` iterations of ENCU the rest is the value without its first `n` groups. -/
theorem encRun_encu_rem (n : Nat) {w : EncWork} (hw : w.phase = .emitting) :
    (encRun encuIter n w).rem = w.rem >>> (7 * n) := by
  induction n generalizing w with
  | zero => simp [encRun]
  | succ n ih =>
    rw [encRun_succ _ _ hw, show 7 * (n + 1) = 7 + 7 * n by omega, BitVec.shiftRight_add]
    by_cases hlast : w.rem >>> 7 = 0#64
    · rw [encuIter_last hlast, encRun_done _ _ rfl, hlast, BitVec.zero_ushiftRight]
    · rw [encuIter_more hlast, ih rfl]

/-- After `n` iterations of ENCS the rest is the value without its first `n` groups, filled with the sign. -/
theorem encRun_encs_rem (n : Nat) {w : EncWork} (hw : w.phase = .emitting) :
    (encRun encsIter n w).rem = w.rem.sshiftRight (7 * n) := by
  induction n generalizing w with
  | zero => simp [encRun]
  | succ n ih =>
    rw [encRun_succ _ _ hw, show 7 * (n + 1) = 7 + 7 * n by omega, BitVec.sshiftRight_add]
    by_cases hlast : EncsStops w.rem
    · have hrest : w.rem.sshiftRight 7 = signCopies w.rem := hlast.rest
      rw [encsIter_last hlast, encRun_done _ _ rfl, hrest, sshiftRight_signCopies]
    · rw [encsIter_more hlast, ih rfl]

/-- ENCU's last byte is the group of the value that follows all the others. -/
theorem EncuEmits.getLast?_eq {v : Value} {bs : List Byte} (h : EncuEmits v bs) :
    bs.getLast? = some (((v >>> (7 * (bs.length - 1))).setWidth 7).setWidth 8) := by
  induction h with
  | final v _ => simp
  | more v bs _ hbs ih =>
    have hpos := List.length_pos_iff.2 hbs.ne_nil
    rw [List.getLast?_cons_of_ne_nil hbs.ne_nil, ih, ← BitVec.shiftRight_add, List.length_cons,
      show 7 + 7 * (bs.length - 1) = 7 * (bs.length + 1 - 1) by omega]

/-- ENCS's last byte is the group of the value that follows all the others. -/
theorem EncsEmits.getLast?_eq {v : Value} {bs : List Byte} (h : EncsEmits v bs) :
    bs.getLast? = some (((v.sshiftRight (7 * (bs.length - 1))).setWidth 7).setWidth 8) := by
  induction h with
  | final v _ => simp
  | more v bs _ hbs ih =>
    have hpos := List.length_pos_iff.2 hbs.ne_nil
    rw [List.getLast?_cons_of_ne_nil hbs.ne_nil, ih, ← BitVec.sshiftRight_add, List.length_cons,
      show 7 + 7 * (bs.length - 1) = 7 * (bs.length + 1 - 1) by omega]

theorem ushiftRight_sixtyThree_eq_zero_iff (v : Value) : v >>> 63 = 0#64 ↔ v.toNat < 2 ^ 63 := by
  rw [← BitVec.toNat_inj, BitVec.toNat_ushiftRight, Nat.shiftRight_eq_div_pow]
  simp

/-- ENCU gives at most 9 bytes exactly where no bit is left after 9 groups. -/
theorem EncuEmits.length_le_nine_iff {v : Value} {bs : List Byte} (h : EncuEmits v bs) :
    bs.length ≤ 9 ↔ v >>> 63 = 0#64 :=
  (h.length_le_iff 8).trans (ushiftRight_sixtyThree_eq_zero_iff v).symm

/-- Settles O12: the rest after 9 groups is bit 63, and it is the group of a 10th byte. -/
theorem encuEndsWellFormed : Obligations.EncuEndsWellFormed := by
  intro s
  obtain ⟨enc, hemits, hexec⟩ := encuResult.1 s
  have hwf := hemits.wellFormed_of_value
  have hle := wellFormedEncoding_length_le hwf
  refine ⟨_, enc, hexec, rfl, rfl, rfl, List.length_pos_iff.2 hemits.ne_nil, hle, hwf, encRun_encu_rem 9 rfl,
    hemits.length_le_nine_iff.2, fun hone => ?_⟩
  have hlen : enc.length = 10 := by
    have hnine : ¬ enc.length ≤ 9 := by rw [hemits.length_le_nine_iff, hone]; decide
    omega
  refine ⟨hlen, ?_⟩
  rw [hemits.getLast?_eq, hlen, hone]
  rfl

/-- Settles O13: the rest after 9 groups is all copies of the sign, and it is the group of a 10th byte. -/
theorem encsEndsWellFormed : Obligations.EncsEndsWellFormed := by
  intro s
  obtain ⟨enc, hemits, hexec⟩ := encsResult.1 s
  have hwf := hemits.wellFormed_of_value
  have hcopies := sshiftRight_sixtyThree s.port.valueIn
  refine ⟨_, enc, hexec, rfl, rfl, rfl, List.length_pos_iff.2 hemits.ne_nil, wellFormedEncoding_length_le hwf, hwf,
    encRun_encs_rem 9 rfl, hcopies ▸ signCopies_eq_zero_or_allOnes _, hcopies.symm, fun hlen => ?_⟩
  rw [hemits.getLast?_eq, hlen, hcopies, signCopies]
  split <;> rfl

end Sys2Proof.Machine
end

section
/-! The encoders' encodings are the shortest ones of the value (40_encode.md R84, R89). -/

namespace Sys2Proof.Machine

theorem EncuEmits.of_result {s t : State} {enc out : List Byte} (hexec : exec .encu s = .next t)
    (hres : t.result = some (.encoded enc out)) : EncuEmits s.port.valueIn enc := by
  obtain ⟨enc', hemits, hexec'⟩ := encuResult.1 s
  obtain rfl := Host.Outcome.next.inj (hexec.symm.trans hexec')
  obtain ⟨rfl, -⟩ := ResultRecord.encoded.inj (Option.some.inj hres)
  exact hemits

theorem EncsEmits.of_result {s t : State} {enc out : List Byte} (hexec : exec .encs s = .next t)
    (hres : t.result = some (.encoded enc out)) : EncsEmits s.port.valueIn enc := by
  obtain ⟨enc', hemits, hexec'⟩ := encsResult.1 s
  obtain rfl := Host.Outcome.next.inj (hexec.symm.trans hexec')
  obtain ⟨rfl, -⟩ := ResultRecord.encoded.inj (Option.some.inj hres)
  exact hemits

theorem lt_two_pow_bitLength (n : Nat) : n < 2 ^ bitLength n := by
  unfold bitLength
  split
  · simp_all
  · exact Nat.lt_log2_self

theorem bitLength_eq_zero_or_le (n : Nat) : bitLength n = 0 ∨ 2 ^ (bitLength n - 1) ≤ n := by
  unfold bitLength
  split
  · exact .inl rfl
  · exact .inr (Nat.log2_self_le ‹_›)

/-- An encoding of `n` bytes has an unsigned value of at most `7n` bits. -/
theorem unsignedValue_toNat_lt (bs : List Byte) : (unsignedValue bs).toNat < 2 ^ (7 * bs.length) := by
  refine Nat.lt_pow_two_of_testBit _ fun k hk => ?_
  rw [BitVec.testBit_toNat]
  by_cases h64 : k < 64
  · simp [getLsbD_unsignedValue bs h64, Nat.not_lt_of_le hk]
  · exact BitVec.getLsbD_of_ge _ _ (Nat.le_of_not_lt h64)

/-- ENCU's last byte is not 0 unless the value is. -/
theorem EncuEmits.getLast?_ne_zero {v : Value} {bs : List Byte} (h : EncuEmits v bs) (hv : v ≠ 0#64) :
    bs.getLast? ≠ some 0x00#8 := by
  induction h with
  | final v hrest =>
    intro hlast
    have hgroup : v.setWidth 7 = 0#7 :=
      (payload_setWidth_group _).symm.trans (congrArg payload (Option.some.inj hlast))
    exact hv (by simpa [hgroup, hrest] using (lowGroup_or_rest v).symm)
  | more v bs hrest hbs ih =>
    rw [List.getLast?_cons_of_ne_nil hbs.ne_nil]
    exact ih hrest

/-- Settles O14: a well-formed encoding of `n` bytes has a value of at most `7n` bits, and those ENCU encodes in at
most `n` bytes. -/
theorem encuIsMinimal : Obligations.EncuIsMinimal := by
  intro s
  obtain ⟨t, enc, hexec, hres, hbits, hone, -⟩ := unsignedLengthByRange s
  have hemits := EncuEmits.of_result hexec hres
  refine ⟨t, enc, hexec, hres, hbits _ (lt_two_pow_bitLength _) (bitLength_eq_zero_or_le _), fun hlong => ?_,
    fun B hB hval => ?_⟩
  · refine hemits.getLast?_ne_zero fun hzero => ?_
    have := hone.2 (by simp [hzero])
    omega
  · obtain ⟨init, last, rfl, -⟩ := (wellFormedEncoding_iff B).1 hB
    have hlt := unsignedValue_toNat_lt (init ++ [last])
    rw [List.length_append, List.length_singleton] at hlt ⊢
    exact (hemits.length_le_iff init.length).2 (hval ▸ hlt)

theorem getLsbD_onesFrom (n : Nat) {k : Nat} (hk : k < 64) : (onesFrom n).getLsbD k = decide (n ≤ k) := by
  have hsub : k - n < 64 := by omega
  rw [onesFrom, BitVec.getLsbD_shiftLeft, BitVec.getLsbD_not, BitVec.getLsbD_zero, ← decide_not]
  simp [hk, hsub]

/-- From the sign bit of the last group on, every bit of a signed value is that sign bit. -/
theorem getLsbD_signedValue_of_le (init : List Byte) (last : Byte) {k : Nat} (hk : 7 * init.length + 6 ≤ k)
    (h64 : k < 64) : (signedValue (init ++ [last])).getLsbD k = signBit last := by
  have hneg : (init ++ [last]).getLast?.any signBit = signBit last := by simp
  rw [signedValue_eq_or, hneg, BitVec.getLsbD_or, getLsbD_unsignedValue _ h64, List.length_append,
    List.length_singleton]
  rcases Nat.eq_or_lt_of_le hk with rfl | hlt
  · have hdiv : (7 * init.length + 6) / 7 = init.length := by omega
    have hmod : (7 * init.length + 6) % 7 = 6 := by omega
    have hin : 7 * init.length + 6 < 7 * (init.length + 1) := by omega
    have hbyte : (init ++ [last]).getD init.length 0#8 = last := by simp
    rw [hdiv, hmod, hbyte, decide_eq_true hin, signBit]
    cases last.getLsbD 6 <;> simp
  · have hhigh : 7 * (init.length + 1) ≤ k := by omega
    cases signBit last <;> simp [getLsbD_onesFrom _ h64, Nat.not_lt_of_le hhigh, hhigh]

/-- A value whose bits from `n` on are all the sign fits `n` bits and its sign. -/
theorem toInt_bounds_of_sshiftRight {v : Value} {n : Nat} (h : v.sshiftRight n = signCopies v) :
    -(2 : Int) ^ n ≤ v.toInt ∧ v.toInt < 2 ^ n := by
  have hpos : (0 : Int) < 2 ^ n := by positivity
  have hdiv : v.toInt / 2 ^ n = 0 ∨ v.toInt / 2 ^ n = -1 := by
    have hint := BitVec.toInt_sshiftRight (x := v) (n := n)
    rw [h, Int.shiftRight_eq_div_pow] at hint
    push_cast at hint
    rw [← hint]
    rcases signCopies_eq_zero_or_allOnes v with hs | hs <;> rw [hs] <;> decide
  have hlower := Int.le_ediv_iff_mul_le (a := -1) (b := v.toInt) hpos
  have hupper := Int.ediv_lt_iff_lt_mul (a := v.toInt) (b := 1) hpos
  omega

/-- An encoding of `n` bytes has a signed value of at most `7n` bits with its sign. -/
theorem signedValue_toInt_bounds (init : List Byte) (last : Byte) :
    -(2 : Int) ^ (7 * init.length + 6) ≤ (signedValue (init ++ [last])).toInt ∧
      (signedValue (init ++ [last])).toInt < 2 ^ (7 * init.length + 6) := by
  refine toInt_bounds_of_sshiftRight (sshiftRight_eq_signCopies fun k hk h64 => ?_)
  rw [getLsbD_signedValue_of_le init last hk h64, getLsbD_signedValue_of_le init last (k := 63) (by omega) (by decide)]

theorem asS64_eq_toInt (v : Value) : asS64 v = v.toInt := by
  have hmsb := BitVec.msb_eq_getLsbD_last v
  rw [asS64, BitVec.toInt_eq_msb_cond]
  cases h : v.getLsbD 63 <;> simp_all

/-- `minLengthSigned` is the length for the bit length of the value, or of its complement where it is negative. -/
theorem minLengthSigned_eq (v : Value) : ∃ m : Nat, (m : Int) = (if 0 ≤ v.toInt then v.toInt else -v.toInt - 1) ∧
    minLengthSigned v = (bitLength m + 1 + 6) / 7 := by
  have hcond := BitVec.toInt_eq_toNat_cond v
  have hlt := v.isLt
  rw [minLengthSigned, asS64_eq_toInt]
  split
  · exact ⟨_, by rw [asU64]; split at hcond <;> omega, rfl⟩
  · exact ⟨_, by rw [asU64, BitVec.toNat_not]; split at hcond <;> omega, rfl⟩

/-- Settles O15: a well-formed encoding of `n` bytes has a signed value of at most `7n` bits with its sign, and those
ENCS encodes in at most `n` bytes. -/
theorem encsIsMinimal : Obligations.EncsIsMinimal := by
  intro s
  obtain ⟨t, enc, hexec, hres, hbits, -⟩ := signedLengthByRange s
  have hemits := EncsEmits.of_result hexec hres
  obtain ⟨m, hm, hmin⟩ := minLengthSigned_eq s.port.valueIn
  refine ⟨t, enc, hexec, hres, ?_, wellFormedEncoding_length_le hemits.wellFormed_of_value, hemits.signedValue_eq,
    fun B hB hval => ?_⟩
  · rw [hmin]
    exact hbits m _ hm (lt_two_pow_bitLength m) (bitLength_eq_zero_or_le m)
  · obtain ⟨init, last, rfl, -⟩ := (wellFormedEncoding_iff B).1 hB
    rw [List.length_append, List.length_singleton]
    exact (hemits.length_le_iff init.length).2 (hval ▸ signedValue_toInt_bounds init last)

end Sys2Proof.Machine
end

section
/-! ENCS of a non-negative value, from ENCU's bytes (40_encode.md R91). -/

namespace Sys2Proof.Machine

/-- ENCS's rule gives one sequence of bytes for each value. -/
theorem EncsEmits.unique {v : Value} {bs bs' : List Byte} (h : EncsEmits v bs) (h' : EncsEmits v bs') : bs = bs' := by
  induction h generalizing bs' with
  | final v hstop =>
    cases h' with
    | final _ _ => rfl
    | more _ _ hmore _ => exact absurd hstop hmore
  | more v bs hmore _ ih =>
    cases h' with
    | final _ hstop => exact absurd hstop hmore
    | more _ bs' _ hbs' => rw [ih hbs']

/-- A non-negative value stops ENCS exactly when no bit remains and the group's sign bit is 0. -/
theorem encsStops_iff_of_msb_false {v : Value} (hv : v.msb = false) :
    EncsStops v ↔ v >>> 7 = 0#64 ∧ v.getLsbD 6 = false := by
  have hne : v >>> 7 ≠ BitVec.allOnes 64 := by
    intro h
    have hmsb : (v >>> 7).msb = false := by simp [BitVec.msb_ushiftRight]
    rw [h] at hmsb
    exact absurd hmsb (by decide)
  rw [EncsStops, BitVec.sshiftRight_eq_of_msb_false hv]
  simp only [hne, false_and, or_false]

theorem encsEmits_zero : EncsEmits 0#64 [0x00#8] :=
  .final 0#64 (.inl ⟨rfl, rfl⟩)

/-- ENCS follows ENCU on a non-negative value up to ENCU's last byte, and ends there or with one more group. -/
theorem EncuEmits.encsEmits_of_msb_false {v : Value} {bs : List Byte} (h : EncuEmits v bs) (hv : v.msb = false) :
    ∃ init last, bs = init ++ [last] ∧ (last.getLsbD 6 = false → EncsEmits v (init ++ [last])) ∧
      (last.getLsbD 6 = true → EncsEmits v (init ++ [0x80#8 ||| last, 0x00#8])) := by
  have hshift := BitVec.sshiftRight_eq_of_msb_false (s := 7) hv
  induction h with
  | final v hrest =>
    have hbit := getLsbD_lowGroup_byte v (show 6 < 7 by decide)
    refine ⟨[], _, rfl, fun hsign => ?_, fun hsign => ?_⟩ <;> rw [hbit] at hsign
    · exact .final v ((encsStops_iff_of_msb_false hv).2 ⟨hrest, hsign⟩)
    · have hmore : ¬ EncsStops v := by simp [encsStops_iff_of_msb_false hv, hsign]
      exact .more v _ hmore (by rw [hshift, hrest]; exact encsEmits_zero)
  | more v bs hrest _ ih =>
    have hnonneg : (v >>> 7).msb = false := by simp [BitVec.msb_ushiftRight]
    have hmore : ¬ EncsStops v := fun h => hrest ((encsStops_iff_of_msb_false hv).1 h).1
    obtain ⟨init, last, rfl, hends, hgoes⟩ := ih hnonneg (BitVec.sshiftRight_eq_of_msb_false hnonneg)
    exact ⟨_ :: init, last, rfl, fun hsign => .more v _ hmore (hshift ▸ hends hsign),
      fun hsign => .more v _ hmore (hshift ▸ hgoes hsign)⟩

theorem resultOf_encs_of_emits {s : State} {enc : List Byte} (h : EncsEmits s.port.valueIn enc) :
    resultOf (exec .encs s) = some (.encoded enc (s.port.prefixIn ++ enc)) :=
  encodeOp_result_of_bytes ((encsEmits_encoderBytes _).unique h)

/-- Settles O21: ENCU's bytes, or those with one more group, are what ENCS's rule emits. -/
theorem encsFromEncuWhenNonNegative : Obligations.EncsFromEncuWhenNonNegative := by
  intro s hs
  have hv : s.port.valueIn.msb = false := by simpa [BitVec.msb_eq_toInt] using hs
  obtain ⟨init, last, hbytes, hends, hgoes⟩ := (encuEmits_encoderBytes s.port.valueIn).encsEmits_of_msb_false hv
  have hencu : resultOf (exec .encu s) = some (.encoded (init ++ [last]) (s.port.prefixIn ++ (init ++ [last]))) :=
    encodeOp_result_of_bytes hbytes
  exact ⟨init, last, hencu, fun hsign => (resultOf_encs_of_emits (hends hsign)).trans hencu.symm,
    fun hsign => resultOf_encs_of_emits (hgoes hsign)⟩

end Sys2Proof.Machine
end

section
/-! What a decode delivers on each kind of input (41_decode.md R101 to R106, R110, R111, R114, R117). -/

namespace Sys2Proof.Machine

/-- Settles O39: ENCU's bytes are a well-formed encoding with the value as its unsigned value. -/
theorem unsignedRoundTrip : Obligations.UnsignedRoundTrip := by
  intro s
  obtain ⟨t, enc, hexec, hres, -, hback⟩ := roundTrips_encu_decu s
  exact ⟨t, enc, hexec, hres, hback⟩

/-- Settles O40: ENCS's bytes are a well-formed encoding with the value as its signed value. -/
theorem signedRoundTrip : Obligations.SignedRoundTrip := by
  intro s
  obtain ⟨t, enc, hexec, hres, -, hback⟩ := roundTrips_encs_decs s
  exact ⟨t, enc, hexec, hres, hback⟩

theorem causeOutput_eq_causeField (build : Build) (c : Cause) : causeOutput build c = causeField build c.code := rfl

/-- The cause of a failure is OVERLONG from 10 bytes on and TRUNCATED below (60_exceptions.md R131, R135). -/
theorem failCauseOf_code (len : Nat) : (failCauseOf len).code = if 10 ≤ len then 2#2 else 1#2 := by
  have hmin : min len Config.maxGroups = Config.maxGroups ↔ 10 ≤ len := min_eq_right_iff
  simp only [failCauseOf, hmin]
  split <;> rfl

theorem noTerminator_or_wellFormed (l : List Byte) :
    NoTerminator l ∨ ∃ B T, wellFormedEncoding B = true ∧ l = B ++ T := by
  refine (noTerminator_or_encoding l).imp_right ?_
  rintro ⟨init, last, T, hl, hinit, hlast, hlen⟩
  exact ⟨init ++ [last], T, (wellFormedEncoding_iff _).2 ⟨init, last, rfl, hinit, hlast, hlen⟩, hl⟩

/-- A decode of a well-formed encoding gives `value` of it, where `value` is what the operation's treatment of the
terminator makes of the assembled groups. -/
theorem decodeOp_wellFormed (op : Instr) {extend : Nat → Byte → Value → Value} {value : List Byte → Value}
    (hvalue : ∀ init last, extend (init.length + 1) last (unsignedValue (init ++ [last])) = value (init ++ [last]))
    (s : State) {B T : List Byte} (hB : wellFormedEncoding B = true) (hin : s.port.bytesIn = B ++ T) :
    decodeOp op extend s = { s with
      decWork := { acc := value B, i := B.length, phase := .done }
      result := some (.decoded (value B) (BitVec.ofNat 8 B.length) (causeField s.build 0#2)) } := by
  obtain ⟨init, last, rfl, hinit, hlast, hlen⟩ := (wellFormedEncoding_iff B).1 hB
  rw [decodeOp_encoding _ _ _ hin hinit hlast hlen, hvalue, List.length_append, List.length_singleton,
    causeOutput_eq_causeField, Cause.code]

theorem decodeOp_noTerminator_result (op : Instr) (extend : Nat → Byte → Value → Value) (s : State)
    (h : NoTerminator s.port.bytesIn) : (decodeOp op extend s).result =
      some (.decoded (Config.failValue s.draws op s.port.bytesIn) 0#8
        (causeField s.build (if 10 ≤ s.port.bytesIn.length then 2#2 else 1#2))) := by
  rw [decodeOp_noTerminator _ _ _ h, causeOutput_eq_causeField, failCauseOf_code]

/-- Settles O25: the accumulator at the terminator is the unsigned value, and DECU leaves it as it is. -/
theorem decuResult : Obligations.DecuResult :=
  ⟨fun s _ _ hB hin => congrArg _ (decodeOp_wellFormed .decu (fun _ _ => rfl) s hB hin),
    fun s h => ⟨_, _, rfl, decodeOp_noTerminator_result .decu decuExtend s h⟩, noTerminator_or_wellFormed⟩

/-- Settles O26: what DECS makes of the accumulator at the terminator is the signed value. -/
theorem decsResult : Obligations.DecsResult :=
  ⟨fun s _ _ hB hin => congrArg _ (decodeOp_wellFormed .decs decsExtend_eq_signedValue s hB hin),
    fun s h => ⟨_, _, rfl, decodeOp_noTerminator_result .decs decsExtend s h⟩, noTerminator_or_wellFormed⟩

/-- Settles O36: the failing record holds the draw of the free value, which is counted. -/
theorem failingDecodeDrawsFreeValue : Obligations.FailingDecodeDrawsFreeValue := by
  intro i s hi h
  obtain ⟨extend, hexec⟩ := exec_decoder hi
  exact ⟨_, _, hexec s, decodeOp_noTerminator_result i extend s h, by rw [decodeOp_noTerminator _ _ _ h]⟩

theorem noTerminator_iff_getElem (l : List Byte) :
    NoTerminator l ↔ ∀ (j : Nat) (h : j < l.length), j < 10 → l[j].getLsbD 7 = true := by
  simp only [NoTerminator, List.forall_mem_iff_getElem, List.length_take, List.getElem_take, lt_min_iff]
  exact ⟨fun h j hj hj10 => h j ⟨hj10, hj⟩, fun h j hj => h j hj.2 hj.1⟩

/-- The scan finds no length exactly in a window without a terminator (30_encoding.md R64). -/
theorem encodingLength?_getD_eq_zero_iff (l : List Byte) : (encodingLength? l).getD 0 = 0 ↔ NoTerminator l := by
  rcases noTerminator_or_encoding l with h | ⟨init, last, T, rfl, hinit, hlast, hlen⟩
  · exact iff_of_true (by rw [encodingLength?_noTerminator h]; rfl) h
  · have hscan := encodingLength?_encoding (T := T) hinit hlast hlen
    refine iff_of_false (by rw [hscan]; exact Nat.succ_ne_zero _) fun h => ?_
    cases hscan.symm.trans (encodingLength?_noTerminator h)

/-- Settles O27: the count is the scanned length, which is 0 exactly where the window has no terminator. -/
theorem decodeFailsIffNoTerminator : Obligations.DecodeFailsIffNoTerminator := by
  intro i s hi
  obtain ⟨t, v, c, f, hexec, hres, hcount⟩ := countIsTheScannedLength i s hi
  refine ⟨t, v, c, f, hexec, hres, ?_⟩
  rw [← noTerminator_iff_getElem, ← encodingLength?_getD_eq_zero_iff, ← hcount, ← BitVec.toNat_inj]
  rfl

/-- Settles O30: a decoder looks at the window only, and on success at the encoding only. -/
theorem decodersSeeOnlyTheWindow : Obligations.DecodersSeeOnlyTheWindow := by
  refine ⟨fun _ _ _ hi hbuild hwin => sameResult_of_take_ten_eq hi hbuild hwin,
    fun i s s' B T T' hi hbuild hB hin hin' => ?_⟩
  obtain ⟨init, last, rfl, hinit, hlast, hlen⟩ := (wellFormedEncoding_iff B).1 hB
  obtain ⟨extend, hexec⟩ := exec_decoder hi
  rw [hexec, hexec, decodeOp_encoding _ _ s hin hinit hlast hlen, decodeOp_encoding _ _ s' hin' hinit hlast hlen,
    resultOf, resultOf, hbuild]

/-- The signed value is the unsigned one ORed with the mask of 41_decode.md R112. -/
theorem signedValue_eq_or_mask (init : List Byte) (last : Byte) : signedValue (init ++ [last]) =
    unsignedValue (init ++ [last]) |||
      if 7 * (init.length + 1) < 64 ∧ signBit last = true then onesFrom (7 * (init.length + 1)) else 0#64 := by
  rw [← decsExtend_eq_signedValue, decsExtend, groupBits_eq, valueBits_eq]
  split <;> simp

/-- Settles O34: both decoders stop at the same byte or both fail, and the two values of an encoding differ by the
mask. -/
theorem decsFromDecu : Obligations.DecsFromDecu := by
  intro s
  rcases noTerminator_or_encoding s.port.bytesIn with h | ⟨init, last, T, hin, hinit, hlast, hlen⟩
  · exact ⟨_, _, _, _, decodeOp_noTerminator_result .decu decuExtend s h,
      decodeOp_noTerminator_result .decs decsExtend s h, fun hc => absurd rfl hc⟩
  · have hB := (wellFormedEncoding_iff _).2 ⟨init, last, rfl, hinit, hlast, hlen⟩
    obtain ⟨t, hexec, hres⟩ := exec_decu_encoding s hB hin
    obtain ⟨u, hexec', hres'⟩ := exec_decs_encoding s hB hin
    refine ⟨_, _, _, _, by rw [hexec]; exact hres, by rw [hexec']; exact hres', fun _ => ?_⟩
    have hcount := toNat_ofNat_eight (wellFormedEncoding_length_le hB)
    have hlastIn : s.port.bytesIn.getD init.length 0#8 = last := by simp [hin]
    rw [hcount, signedValue_eq_or_mask, List.length_append, List.length_singleton, Nat.add_sub_cancel, hlastIn]
    rfl

end Sys2Proof.Machine
end

section
/-! The bits of a decoded value (41_decode.md R107, R112, R113). -/

namespace Sys2Proof.Machine

/-- The extension sets no bit below its boundary `7n`. -/
theorem getLsbD_signedValue_of_lt {B : List Byte} {j : Nat} (hj : j < 7 * B.length) (h64 : j < 64) :
    (signedValue B).getLsbD j = (B.getD (j / 7) 0#8).getLsbD (j % 7) := by
  have hmask : (if B.getLast?.any signBit = true then onesFrom (7 * B.length) else 0#64).getLsbD j = false := by
    split
    · rw [getLsbD_onesFrom _ h64, decide_eq_false (Nat.not_le_of_lt hj)]
    · exact BitVec.getLsbD_zero
  rw [signedValue_eq_or, BitVec.getLsbD_or, hmask, Bool.or_false, getLsbD_unsignedValue B h64, decide_eq_true hj,
    Bool.true_and]

/-- Settles O32: below the boundary the bits are DECU's, and from it on they are the sign bit of the terminator. -/
theorem decsSignExtension : Obligations.DecsSignExtension := by
  intro s B T hB hin
  obtain ⟨t, hexec, hres⟩ := exec_decs_encoding s hB hin
  refine ⟨t, _, _, hexec, hres, fun j h64 => ?_⟩
  split
  next hj => exact getLsbD_signedValue_of_lt hj h64
  next hj =>
    obtain ⟨init, last, rfl, -⟩ := (wellFormedEncoding_iff B).1 hB
    rw [List.length_append, List.length_singleton] at hj ⊢
    rw [getLsbD_signedValue_of_le init last (by omega) h64]
    simp [signBit]

/-- Both values of a 10-byte encoding have the payload bits of its bytes: there is no bit to extend to. -/
theorem exec_decoder_ten_bytes {i : Instr} (hi : i = .decu ∨ i = .decs) (s : State) {B T : List Byte}
    (hB : wellFormedEncoding B = true) (hlen : B.length = 10) (hin : s.port.bytesIn = B ++ T) :
    ∃ (t : State) (v : Value) (f : Option (BitVec 2)), exec i s = .next t ∧ t.result = some (.decoded v 10#8 f) ∧
      ∀ j, j < 64 → v.getLsbD j = (B.getD (j / 7) 0#8).getLsbD (j % 7) := by
  have hj : ∀ j, j < 64 → j < 7 * B.length := by omega
  rcases hi with rfl | rfl
  · obtain ⟨t, hexec, hres⟩ := exec_decu_encoding s hB hin
    refine ⟨t, _, _, hexec, hlen ▸ hres, fun j h64 => ?_⟩
    rw [getLsbD_unsignedValue B h64, decide_eq_true (hj j h64), Bool.true_and]
  · obtain ⟨t, hexec, hres⟩ := exec_decs_encoding s hB hin
    exact ⟨t, _, _, hexec, hlen ▸ hres, fun j h64 => getLsbD_signedValue_of_lt (hj j h64) h64⟩

/-- Settles O33: bit 63 is payload bit 0 of byte 9, and the bits below are those of bytes 0 to 8. -/
theorem tenthByteGivesBit63 : Obligations.TenthByteGivesBit63 := by
  intro i s B T hi hB hlen hin
  obtain ⟨t, v, f, hexec, hres, hbits⟩ := exec_decoder_ten_bytes hi s hB hlen hin
  exact ⟨t, v, f, hexec, hres, hbits 63 (by decide), fun j hj => hbits j (by omega)⟩

end Sys2Proof.Machine
end

section
/-! Encodings padded with redundant groups (41_decode.md R115). -/

namespace Sys2Proof.Machine

theorem padEncoding_cons (fill : Group) (p : Nat) (b : Byte) (enc : List Byte) :
    padEncoding fill p (b :: enc) = (0x80#8 ||| b) :: padEncoding fill p enc := rfl

/-- The padding alone is one redundant group, with one more in front for each count. -/
theorem padEncoding_nil_succ (fill : Group) (p : Nat) :
    padEncoding fill (p + 1) [] = (0x80#8 ||| fill.setWidth 8) :: padEncoding fill p [] := rfl

theorem padEncoding_ne_nil (fill : Group) (p : Nat) (enc : List Byte) : padEncoding fill p enc ≠ [] := by
  simp [padEncoding]

theorem length_padEncoding (fill : Group) (p : Nat) (enc : List Byte) :
    (padEncoding fill p enc).length = enc.length + p + 1 := by
  simp [padEncoding, Nat.add_assoc]

/-- Padding flags every byte before its last group, so it makes a well-formed encoding of up to 10 bytes. -/
theorem wellFormedEncoding_padEncoding (fill : Group) {p : Nat} {enc : List Byte} (hlen : enc.length + p + 1 ≤ 10) :
    wellFormedEncoding (padEncoding fill p enc) = true := by
  refine (wellFormedEncoding_iff _).2 ⟨_, _, rfl, fun b hb => ?_, contFlag_setWidth_group fill, by simp; omega⟩
  rcases List.mem_append.1 hb with hb | hb
  · obtain ⟨c, -, rfl⟩ := List.mem_map.1 hb
    exact contFlag_flagged c
  · rw [List.eq_of_mem_replicate hb]
    exact contFlag_flagged _

theorem unsignedValue_zeroPadding (p : Nat) : unsignedValue (padEncoding 0#7 p []) = 0#64 := by
  induction p with
  | zero => decide
  | succ p ih => rw [padEncoding_nil_succ, unsignedValue_cons, ih, payload_flagged, payload_setWidth_group]; rfl

/-- Zero groups above ENCU's bytes add nothing to their unsigned value. -/
theorem EncuEmits.unsignedValue_padEncoding {v : Value} {bs : List Byte} (h : EncuEmits v bs) (p : Nat) :
    unsignedValue (padEncoding 0#7 p bs) = v := by
  induction h with
  | final v hrest =>
    rw [padEncoding_cons, unsignedValue_cons, unsignedValue_zeroPadding, payload_flagged, payload_setWidth_group,
      ← hrest, lowGroup_or_rest]
  | more v bs _ _ ih =>
    rw [padEncoding_cons, unsignedValue_cons, ih, payload_flagged, payload_flagged, payload_setWidth_group,
      lowGroup_or_rest]

/-- The redundant group of a signed value: 7 copies of its sign. -/
def signGroup (v : Value) : Group := if v.getLsbD 63 = true then 0x7f#7 else 0#7

/-- Sign groups alone are copies of the sign, as is the rest at which ENCS stops. -/
theorem signedValue_signPadding (v : Value) (p : Nat) :
    signedValue (padEncoding (signGroup v) p []) = signCopies v := by
  induction p with
  | zero => rw [signGroup, signCopies]; split <;> decide
  | succ p ih =>
    rw [padEncoding_nil_succ, signedValue_cons _ (padEncoding_ne_nil _ p _), ih, payload_flagged,
      payload_setWidth_group, signGroup, signCopies]
    split <;> decide

/-- Sign groups above ENCS's bytes leave their signed value as it is. -/
theorem EncsEmits.signedValue_padEncoding {v : Value} {bs : List Byte} (h : EncsEmits v bs) (p : Nat) :
    signedValue (padEncoding (signGroup v) p bs) = v := by
  induction h with
  | final v hstop =>
    have hrest : v.sshiftRight 7 = signCopies v := hstop.rest
    rw [padEncoding_cons, signedValue_cons _ (padEncoding_ne_nil _ p _), signedValue_signPadding, payload_flagged,
      payload_setWidth_group, ← hrest, sshiftRight_seven_shiftLeft, lowGroup_or_rest]
  | more v bs _ _ ih =>
    rw [signGroup, sshiftRight_seven_sign, ← signGroup] at ih
    rw [padEncoding_cons, signedValue_cons _ (padEncoding_ne_nil _ p _), ih, payload_flagged, payload_flagged,
      payload_setWidth_group, sshiftRight_seven_shiftLeft, lowGroup_or_rest]

/-- Settles O35: the padded bytes are a well-formed encoding with the same value. -/
theorem paddedEncodingsAccepted : Obligations.PaddedEncodingsAccepted := by
  refine ⟨fun s p => ?_, fun s p => ?_⟩
  · have hemits := encuEmits_encoderBytes s.port.valueIn
    refine ⟨_, encodeOp_result encuIter s, fun hlen u T hin => ?_⟩
    have hdec := exec_decu_encoding u (wellFormedEncoding_padEncoding _ hlen) hin
    rwa [hemits.unsignedValue_padEncoding, length_padEncoding] at hdec
  · have hemits := encsEmits_encoderBytes s.port.valueIn
    refine ⟨_, encodeOp_result encsIter s, fun hlen u T hin => ?_⟩
    have hdec := exec_decs_encoding u (wellFormedEncoding_padEncoding _ hlen) hin
    rw [← signGroup, hemits.signedValue_padEncoding, length_padEncoding] at hdec
    exact hdec

end Sys2Proof.Machine
end

section
/-! The outcome of a decode in either build, the refusal of an illegal command, and the encoders' completion
(60_exceptions.md R130, R133 to R136). -/

namespace Sys2Proof.Machine

/-- The outcome of a decode of `l`, by the priority of 60_exceptions.md R135. -/
def decodeCause (l : List Byte) : Cause :=
  if (window l).any (fun b => !contFlag b) = true then .none else failCauseOf l.length

theorem any_terminator_iff (l : List Byte) : (window l).any (fun b => !contFlag b) = true ↔ ¬ NoTerminator l := by
  simp [NoTerminator, window, contFlag]

theorem decodeCause_noTerminator {l : List Byte} (h : NoTerminator l) : decodeCause l = failCauseOf l.length :=
  if_neg fun hany => (any_terminator_iff l).1 hany h

theorem decodeCause_terminator {l : List Byte} (h : ¬ NoTerminator l) : decodeCause l = .none :=
  if_pos ((any_terminator_iff l).2 h)

theorem decodeCause_eq_none_iff (l : List Byte) : decodeCause l = .none ↔ ¬ NoTerminator l :=
  ⟨fun h hno => failCauseOf_ne_none _ ((decodeCause_noTerminator hno).symm.trans h), decodeCause_terminator⟩

/-- The codes of R133 in the order of R135. -/
theorem decodeCause_code (l : List Byte) : (decodeCause l).code =
    if (l.take 10).any (fun b => !b.getLsbD 7) = true then 0#2 else if min l.length 10 = 10 then 2#2 else 1#2 := by
  rw [decodeCause, apply_ite Cause.code, failCauseOf, apply_ite Cause.code]
  rfl

theorem not_noTerminator_encoding {init T : List Byte} {last : Byte} (hinit : ∀ b ∈ init, contFlag b = true)
    (hlast : contFlag last = false) (hlen : init.length ≤ 9) : ¬ NoTerminator (init ++ [last] ++ T) := by
  rw [← encodingLength?_getD_eq_zero_iff, encodingLength?_encoding hinit hlast hlen]
  exact Nat.succ_ne_zero _

/-- A decode delivers the same value and count in every build; the build only decides whether the cause is output. The
count is 0 exactly where the window has no terminator. -/
theorem decodeOp_result_of_build (op : Instr) (extend : Nat → Byte → Value → Value) (s : State) :
    ∃ (v : Value) (c : Byte), (c = 0#8 ↔ NoTerminator s.port.bytesIn) ∧
      ∀ build, (decodeOp op extend { s with build := build }).result =
        some (.decoded v c (causeField build (decodeCause s.port.bytesIn).code)) := by
  rcases noTerminator_or_encoding s.port.bytesIn with h | ⟨init, last, T, hin, hinit, hlast, hlen⟩
  · refine ⟨Config.failValue s.draws op s.port.bytesIn, 0#8, iff_of_true rfl h, fun build => ?_⟩
    rw [decodeOp_noTerminator _ _ { s with build := build } h, decodeCause_noTerminator h, causeOutput_eq_causeField]
  · have hterm : ¬ NoTerminator s.port.bytesIn := hin ▸ not_noTerminator_encoding hinit hlast hlen
    have hcount : BitVec.ofNat 8 (init.length + 1) ≠ 0#8 := by
      rw [Ne, ← BitVec.toNat_inj, toNat_ofNat_eight (by omega)]
      exact Nat.succ_ne_zero _
    refine ⟨extend (init.length + 1) last (unsignedValue (init ++ [last])), _, iff_of_false hcount hterm,
      fun build => ?_⟩
    rw [decodeOp_encoding _ _ { s with build := build } hin hinit hlast hlen, decodeCause_terminator hterm,
      causeOutput_eq_causeField]

/-- Settles O28: in the rich build the cause of R135 is output. -/
theorem decodeOutcomePriority : Obligations.DecodeOutcomePriority := by
  intro i s hi hrich
  obtain ⟨extend, hexec⟩ := exec_decoder hi
  obtain ⟨v, c, -, hres⟩ := decodeOp_result_of_build i extend s
  refine ⟨_, v, c, hexec s, (hres s.build).trans ?_⟩
  rw [causeField, if_pos hrich, decodeCause_code]

/-- Settles O29: the two builds differ in whether the cause is output, and the cause is NONE exactly on success. -/
theorem causeOutputOnlyInRichBuild : Obligations.CauseOutputOnlyInRichBuild := by
  refine ⟨rfl, fun i s hi => ?_⟩
  obtain ⟨extend, hexec⟩ := exec_decoder hi
  obtain ⟨v, c, hcount, hres⟩ := decodeOp_result_of_build i extend s
  refine ⟨v, c, (decodeCause s.port.bytesIn).code, ?_, ?_, ?_, fun hc => ?_⟩
  · rw [hexec]
    exact hres { richErrors := false }
  · rw [hexec]
    exact hres { richErrors := true }
  · rw [Cause.code_eq_zero_iff, decodeCause_eq_none_iff, Ne, hcount]
  · rw [decodeCause_noTerminator (hcount.1 hc), failCauseOf_code]

/-- Settles O4: taking the record refuses an illegal command word, and the step passes the refusal on. -/
theorem illegalCommandRefused : Obligations.IllegalCommandRefused :=
  fun _ _ _ hp hill => step_of_fetch_refuse ((fetch_operation hp).trans (fetchRecord_illegal hill _))

/-- Settles O20: an encoder delivers an encoding in every state. -/
theorem encodersNeverFail : Obligations.EncodersNeverFail := by
  intro i s hi
  obtain ⟨t, enc, hexec, hres, -⟩ := exec_encoder_result hi s
  exact ⟨t, enc, _, hexec, hres⟩

end Sys2Proof.Machine
end

section
/-! Reset, the host's cursor, and how many iterations and steps things take (70_reset_and_hazards.md). -/

namespace Sys2Proof.Machine

/-! ### The host's cursor (R155, R157) -/

theorem ResultRecord.usableValue_eq_none_iff (v : Value) (c : Byte) (f : Option (BitVec 2)) :
    (ResultRecord.decoded v c f).usableValue = none ↔ c = 0#8 := by
  rw [ResultRecord.usableValue]
  split <;> simp_all

theorem ResultRecord.cursorAdvance_eq_none_iff (v : Value) (c : Byte) (f : Option (BitVec 2)) :
    (ResultRecord.decoded v c f).cursorAdvance = none ↔ c = 0#8 := by
  rw [ResultRecord.cursorAdvance]
  split <;> simp_all

theorem ResultRecord.cursorAdvance_eq_some {v : Value} {c : Byte} {f : Option (BitVec 2)} {n : Nat}
    (h : (ResultRecord.decoded v c f).cursorAdvance = some n) : 1 ≤ n ∧ n = c.toNat := by
  rw [ResultRecord.cursorAdvance] at h
  split at h
  next => cases h
  next hc =>
    obtain rfl := Option.some.inj h
    exact ⟨Nat.pos_of_ne_zero fun hzero => hc (BitVec.eq_of_toNat_eq hzero), rfl⟩

/-- The scan for a terminator stays within the window (30_encoding.md R64). -/
theorem encodingLength?_getD_le (l : List Byte) : (encodingLength? l).getD 0 ≤ min l.length 10 := by
  rcases noTerminator_or_encoding l with h | ⟨init, last, T, rfl, hinit, hlast, hlen⟩
  · rw [encodingLength?_noTerminator h]
    exact Nat.zero_le _
  · rw [encodingLength?_encoding hinit hlast hlen]
    simp
    omega

/-- Settles O38: the count is the scanned length of the input, which is at most `min(L,10)` and is the same for the
input that still stands at the port. -/
theorem cursorStaysInBuffer : Obligations.CursorStaysInBuffer := by
  intro i s hi
  obtain ⟨t, v, c, f, hexec, hres, hcount⟩ := countIsTheScannedLength i s hi
  obtain ⟨t', v', c', f', hexec', hres', hcount'⟩ := countIsTheScannedLength i t hi
  have hsame : c' = c := by
    rw [(exec_keeps_port_pending_build hexec).1, ← hcount] at hcount'
    exact BitVec.eq_of_toNat_eq hcount'
  have husable := ResultRecord.usableValue_eq_none_iff v c f
  have hadvance := ResultRecord.cursorAdvance_eq_none_iff v c f
  refine ⟨t, _, hexec, hres, husable.trans hadvance.symm, fun n hn => ?_, fun hnone => ⟨t', _, hexec', hres', ?_⟩⟩
  · obtain ⟨hpos, rfl⟩ := ResultRecord.cursorAdvance_eq_some hn
    exact ⟨hpos, hcount ▸ encodingLength?_getD_le s.port.bytesIn⟩
  · exact (ResultRecord.cursorAdvance_eq_none_iff v' c' f').2 (hsame.trans (hadvance.1 hnone))

/-! ### History and iterations (R151, R154, R159) -/

/-- Settles O44: both steps perform the operation on the same record in the same build. -/
theorem operationsDoNotSeeHistory : Obligations.OperationsDoNotSeeHistory := by
  intro s r rest i hp hi
  rw [step_operation hp hi,
    step_operation (s := { State.reset with build := s.build, pending := [.operation r] }) (rest := []) rfl hi]
  exact sameResult_of_port_build_eq i rfl rfl

theorem wellFormedEncoding_length_pos {enc : List Byte} (h : wellFormedEncoding enc = true) : 1 ≤ enc.length := by
  obtain ⟨init, last, rfl, -⟩ := (wellFormedEncoding_iff enc).1 h
  simp

/-- Settles O47: an encoder's `k` ends at the length of its well-formed encoding, and a decoder's index at the count or,
on failure, at the end of the window. -/
theorem iterationCounts : Obligations.IterationCounts := by
  refine ⟨fun i s hi => ?_, fun i s hi => ?_⟩
  · obtain ⟨rem, enc, hwf, hexec⟩ := exec_encoder hi s
    exact ⟨_, enc, _, hexec, rfl, rfl, rfl, wellFormedEncoding_length_pos hwf, wellFormedEncoding_length_le hwf⟩
  · rcases exec_decoder_cases hi s with ⟨v, n, hpos, hten, hexec⟩ | ⟨acc, hexec⟩
    · have hcount := toNat_ofNat_eight hten
      refine ⟨_, v, _, _, hexec, rfl, fun _ => ⟨rfl, hcount.symm⟩, fun hzero => ?_⟩
      rw [hzero] at hcount
      exact absurd hcount (Nat.ne_of_lt hpos)
    · exact ⟨_, _, _, _, hexec, rfl, fun hne => absurd rfl hne, fun _ => ⟨rfl, rfl⟩⟩

/-! ### Bounded steps (R159, R160) -/

theorem stepsLeft_eq_zero_iff (p : List HostEvent) : stepsLeft p = 0 ↔ p = [] := by
  constructor
  · intro h
    match p with
    | [] => rfl
    | .operation _ :: _ | .interrupted _ :: _ | .concurrent _ _ _ :: _ | .reset :: _ =>
      simp only [stepsLeft] at h
      omega
  · rintro rfl
    rfl

theorem run_succ_of_step {M : Host.Core} {s t : M.State} (h : M.step s = .next t) (n : Nat) :
    M.run (n + 1) s = M.run n t := by
  simp only [Host.Core.run, h]

/-- Settles O52, by induction on the steps left: a safe state steps to a safe state with one step less to take. -/
theorem everythingPresentedIsTaken : Obligations.EverythingPresentedIsTaken := by
  intro s hs
  induction hn : stepsLeft s.pending generalizing s with
  | zero => exact ⟨s, rfl, (stepsLeft_eq_zero_iff _).1 hn⟩
  | succ n ih =>
    obtain ⟨t, hstep, ht⟩ := dutifulHostNeverStops s hs
    obtain ⟨-, hleft, -⟩ := stepKeepsBuild s t hstep
    obtain ⟨u, hrun, hu⟩ := ih t ht (by rw [hleft, hn, Nat.add_sub_cancel])
    exact ⟨u, (run_succ_of_step (M := Sys2Proof.core) hstep n).trans hrun, hu⟩

/-! ### Reset (R150, R152, R153) -/

theorem step_reset_event {s : State} {rest : List HostEvent} (h : s.pending = .reset :: rest) :
    step s = .next (resetBlock (s.setPending rest)) :=
  step_of_fetch_over (fetch_reset h)

theorem step_interrupted {s : State} {r : InputRecord} {rest : List HostEvent}
    (h : s.pending = .interrupted r :: rest) (hl : LegalCommand r.cmd) :
    step s = .next (resetBlock ((s.setPending rest).setPort r)) :=
  step_of_fetch_over ((fetch_interrupted h).trans (abandonRecord_ok hl _))

/-- Settles O7: the block just reset performs what is presented, and every operation completes. -/
theorem resetIsReadyWithoutResult : Obligations.ResetIsReadyWithoutResult := by
  refine ⟨rfl, rfl, fun i r hi => ?_⟩
  obtain ⟨t, out, hexec, hres, -⟩ := exec_next i (State.reset.setPort r)
  exact ⟨t, out, (step_reset_operation hi).trans hexec, hres⟩

/-- Settles O8: a reset event resets the block and is taken from the list. -/
theorem resetEvent : Obligations.ResetEvent :=
  fun _ _ => step_reset_event

/-- Settles O9: abandoning the operation and resetting with its record at the port give one state. -/
theorem interruptedOperationHasNoResult : Obligations.InterruptedOperationHasNoResult := by
  intro s r rest hp hl
  exact ⟨_, step_interrupted hp hl, rfl, rfl, rfl,
    step_reset_event (s := { s with port := r, pending := .reset :: rest }) rfl⟩

/-- Settles O48: the working state at reset meets the invariant, and there is no result record. -/
theorem resetMeetsInvariant : Obligations.ResetMeetsInvariant :=
  ⟨EncWork.inv_reset, DecWork.inv_reset, nofun⟩

end Sys2Proof.Machine
end
